-- ==== Sys2Proof/Word.lean ====
section
/-! DEFINITION. The word types of the two blocks: what the spec calls a byte, a PackedReal, a binary64
and a 9-bit input token (00_scope.md R8, 30_encoding.md R60, R63, R65). -/

namespace Sys2Proof

/-- One byte of the input stream; bit 7 is the most significant (R8(a)). -/
abbrev Byte := BitVec 8

/-- The 48-bit value `P` of a record: byte 0 is `P[47:40]`, byte 5 is `P[7:0]` (R8(c)). -/
abbrev PackedReal := BitVec 48

/-- The 64 bits of an IEEE 754 binary64 (R65). -/
abbrev Binary64 := BitVec 64

/-- An input token as one vector, in_eos above in_data (R63). -/
abbrev TokenBits := BitVec 9

end Sys2Proof
end

