-- ==== Sys2Proof/Config.lean ====
section
/-! DEFINITION. What an implementation fixes: the open parameters of 00_scope.md R6 and the constants of R5, the
input ports as the environment drives them (20_memory.md R41, R47, R52), and the one free value of the model. -/

namespace Sys2Proof

/-- The three widths that R6 leaves open. A model takes them as arguments (92_eei_decisions.md section 2):
every type, operation and statement here is for all of them (log entry 1). -/
structure Widths where
  /-- `NV_W`: width of cfg_nodivars, cfg_nv and col. -/
  nvW : Nat
  /-- `REACTOR_W`: width of reactor. -/
  reactorW : Nat
  /-- `NUMREAD_W`: width of numbersRead. -/
  numreadW : Nat
deriving DecidableEq, Repr, Inhabited

/-- R6's constraint: each width is at least 1. -/
def Widths.legal (w : Widths) : Bool := 1 ≤ w.nvW && 1 ≤ w.reactorW && 1 ≤ w.numreadW

/-- The defaults of R6. -/
def Widths.default : Widths := ⟨16, 32, 64⟩

namespace Config

/-- `REC_BYTES` (R5): bytes per record. -/
def recBytes : Nat := 6

/-- `EXP_BIAS` (R5): subtracted from the stored exponent. -/
def expBias : Nat := 129

/-- `DAY_MINUTES` (R5): the numerator of dataPerDay. -/
def dayMinutes : Nat := 1440

/-- `INTERVALS` (R5): the legal values of dataInterval, in minutes. -/
def intervals : List Nat := [10, 15, 30]

/-- `MIN_NODIVARS` (R5): the least legal NoDiVars. -/
def minNoDiVars : Nat := 1

end Config

/-- The values the environment drives on the input ports at one rising edge of clk (R41, R47, R52).
These are inputs of a step, not state of the block (R31). -/
structure Pins (w : Widths) where
  rst : Bool
  inValid : Bool
  inEos : Bool
  inData : Byte
  outReady : Bool
  cfgNodivars : BitVec w.nvW
  cfgInterval : BitVec 8
deriving DecidableEq, Repr, Inhabited

namespace Config

/-- What the environment drives at an edge for which the state lists no stimulus: a FREE VALUE, applied
to the count of such edges (DESIGN CHOICE, log entry 3). Safe: nothing about it can be proved, so what
holds of a step here holds for every environment (R49: any timing of in_valid and out_ready). -/
opaque freePins : (w : Widths) → Nat → Pins w

end Config

end Sys2Proof
end

