-- ==== Sys2Proof/Syntax.lean ====
section
/-! DEFINITION. The operations of the two blocks: one constructor per row of spec/opcode_table.json. The
hardware executes no stored program; an instruction is an operation in the sense of 00_scope.md R7. An operand
whose width is a parameter of R6 is written as a number; Instr.wellFormed asks that it fits (log entry 17). -/

namespace Sys2Proof

/-- One constructor per row of spec/opcode_table.json. -/
inductive Instr where
  /-- `DECODE48.ZERO`: the decoder is given the all-zero pattern (R81). -/
  | decode48Zero
  /-- `DECODE48.NORMAL`: the decoder is given any other pattern, by its fields E, s and M (R60, R61, R80). -/
  | decode48Normal (e : BitVec 8) (s : Bool) (m : BitVec 39)
  /-- `BYTE.STORE`: the token BYTE(b) while bidx < 5 (R102). -/
  | byteStore (b : Byte)
  /-- `BYTE.COMPLETE`: the token BYTE(b) while bidx = 5 (R103). -/
  | byteComplete (b : Byte)
  /-- `EOS`: the end-of-stream token; in_data is ignored (R63, R106). -/
  | eos
  /-- `REC`: the textual notation's pseudo-operation, six BYTE tokens, the bytes of P left to right (R69). -/
  | recLine (p : PackedReal)
  /-- `START`: the first edge after reset, with the values of the two configuration ports (R52, R101). -/
  | start (nodivars : Nat) (interval : BitVec 8)
  /-- `POP`: the held token is delivered (R107). -/
  | pop
  /-- `RESET`: a rising edge with rst = 1 (R150). -/
  | reset
  /-- `VALUE`: the block pushes this VALUE token into its holding register (R9 OutPush, R64). -/
  | value (sor eor : Bool) (reactor : Nat) (ticks : BitVec 8) (col : Nat) (data : Binary64)
  /-- `END`: the block pushes this END token into its holding register (R9 OutPush, R64). -/
  | endTok (truncRecord truncRow : Bool) (reactor : Nat) (ticks : BitVec 8) (col : Nat)
deriving DecidableEq, Repr

end Sys2Proof
end

