-- ==== Sys2Proof/WellFormed.lean ====
section
/-! DEFINITION. Which instruction terms stand for a word that the spec's formats admit (30_encoding.md R60 to
R64). Every input token and every configuration is well formed (R63, R66: an illegal configuration is
accepted as a word and refused by START). -/

namespace Sys2Proof

/-- A binary64 word that DECODE48 can produce: `+0.0`, or a normal number with biased exponent in
894..1149 and the low 13 fraction bits zero, other than `+2^-129` (R91, R94). -/
def isDecoded (d : Binary64) : Bool :=
  d == 0 ||
    (d.extractLsb' 0 13 == 0 && (894#11 ≤ d.extractLsb' 52 11) && (d.extractLsb' 52 11 ≤ 1149#11) &&
      d != 0x37e0000000000000#64)

/-- The check on an instruction term, at the widths `w` of R6.

* `DECODE48.NORMAL`: not the all-zero pattern, which is `DECODE48.ZERO` (R62).
* `START`: the number of dividing variables is one that NV_W bits can present (R6, R66).
* `VALUE`, `END`: the tags fit REACTOR_W and NV_W bits (R64).
* `VALUE`: `sor` is 1 exactly at column 0, and `data` is a value DECODE48 produces (R64, R91).
* `END`: `trunc_row` is 1 exactly when `col` is not 0 (R64). -/
def Instr.wellFormed (w : Widths) : Instr → Bool
  | .decode48Zero => true
  | .decode48Normal e s m => !(e == 0 && !s && m == 0)
  | .byteStore _ => true
  | .byteComplete _ => true
  | .eos => true
  | .recLine _ => true
  | .start nodivars _ => nodivars < 2 ^ w.nvW
  | .pop => true
  | .reset => true
  | .value sor _ reactor _ col data =>
    reactor < 2 ^ w.reactorW && col < 2 ^ w.nvW && (sor == (col == 0)) && isDecoded data
  | .endTok _ truncRow reactor _ col =>
    reactor < 2 ^ w.reactorW && col < 2 ^ w.nvW && (truncRow == (col != 0))

end Sys2Proof
end

