-- ==== Sys2Proof/Decode.lean ====
section
/-! DEFINITION. From bits to operations and back: the PackedReal fields (30_encoding.md R60, R61), the input token
(R63), the control conditions, the pseudo-operation REC (R69) and the output token (R64), laid out as
spec/opcode_table.json lays them out, each word read as one number with bit 0 the least significant. -/

namespace Sys2Proof

/-! ### The PackedReal fields -/

/-- `E[7:0] = P[47:40]` (R61, R82). -/
def exponentField (p : PackedReal) : BitVec 8 := p.extractLsb' 40 8

/-- `s = P[7]`, bit 7 of byte 5 (R61, R87). -/
def signField (p : PackedReal) : Bool := p.getLsbD 7

/-- `M[38:0]`: byte 5 bits 6..0 on top, then bytes 4, 3, 2, 1 (R61, R84; 90_conflicts.md C1). -/
def mantissaField (p : PackedReal) : BitVec 39 :=
  p.extractLsb' 0 7 ++ p.extractLsb' 8 8 ++ p.extractLsb' 16 8 ++ p.extractLsb' 24 8 ++
    p.extractLsb' 32 8

/-- The pattern with the given fields: the table of R60 read from the fields to the bits. -/
def assembleReal (e : BitVec 8) (s : Bool) (m : BitVec 39) : PackedReal :=
  e ++ m.extractLsb' 0 8 ++ m.extractLsb' 8 8 ++ m.extractLsb' 16 8 ++ m.extractLsb' 24 8 ++
    BitVec.ofBool s ++ m.extractLsb' 32 7

/-- Byte `i` of a 12-digit literal, byte 0 its first two digits (R8(c), R43). -/
def literalByte (p : PackedReal) (i : Nat) : Byte := p.extractLsb' (40 - 8 * i) 8

/-! ### Formats -/

/-- The formats of spec/opcode_table.json. They belong to different ports, so a word names its own. -/
inductive Format where
  /-- `{rst}`, `{rst, phase}` or `{rst, o_valid, out_ready}`: RESET, START with the operands 0, POP. -/
  | control
  /-- `{in_eos, in_data[7:0]}` (R63). -/
  | inputToken
  /-- START with its two operands above the condition (log entry 9). -/
  | startPorts
  /-- The 48 bits of R60. -/
  | packedReal
  /-- Six 9-bit tokens, the first the most significant (R69). -/
  | recTokens
  /-- The output token (R64). -/
  | outputToken
  /-- No port of the two blocks: a length in bits that no row of the table has. -/
  | other (nbits : Nat)
deriving DecidableEq, Repr

/-- A word: the format it is written in and its bits, bit 0 the least significant. -/
structure EncWord where
  format : Format
  bits : Nat
deriving DecidableEq, Repr

/-- The number of bits a format uses, at the widths `w` of R6. -/
def Format.width (w : Widths) : Format → Nat
  | .control => 3
  | .inputToken => 9
  | .startPorts => 16 + w.nvW
  | .packedReal => 48
  | .recTokens => 54
  | .outputToken => 64 + w.reactorW + w.nvW + 13
  | .other nbits => nbits

/-- The format of a row of the opcode table, by the row's length in whole bytes. The table lays its words out at
R6's defaults, where these lengths tell the formats apart; 32 is START with its operands (log entry 9). -/
def Format.ofLength (nbits : Nat) : Format :=
  if nbits = 8 then .control
  else if nbits = 16 then .inputToken
  else if nbits = 32 then .startPorts
  else if nbits = 48 then .packedReal
  else if nbits = 56 then .recTokens
  else if nbits = 128 then .outputToken
  else .other nbits

/-- Why a word stands for no operation. -/
inductive DecodeError where
  /-- No format of the table has this length. -/
  | noFormat
  /-- A bit above the format's own bits is set. -/
  | strayBits
  /-- The control vector is none of 000 (START), 011 (POP), 1 (RESET). -/
  | noControlStep
  /-- One of the six tokens of a REC is not a BYTE token. -/
  | recNotBytes
  /-- A field that the token kind fixes at 0 is not 0 (R64, D26). -/
  | fixedFieldSet
deriving DecidableEq, Repr

/-! ### Decoding -/

/-- An input token: EOS if bit 8 is set, whatever in_data is; else BYTE(b), which is the row BYTE.STORE
while `bidx < 5` and BYTE.COMPLETE otherwise (R63, R102, R103). -/
def decodeToken (bidx : BitVec 3) (t : TokenBits) : Instr :=
  if t.getLsbD 8 then .eos
  else if bidx < 5 then .byteStore (t.extractLsb' 0 8)
  else .byteComplete (t.extractLsb' 0 8)

/-- A PackedReal: the zero-check's class has priority over the other (R62, table column "priority"). -/
def decodePackedReal (p : PackedReal) : Instr :=
  if p = 0 then .decode48Zero
  else .decode48Normal (exponentField p) (signField p) (mantissaField p)

/-- The three control conditions, by the value of their vector; START written without its operand
words has both operands 0. -/
def decodeControl (w : Nat) : Except DecodeError Instr :=
  if w = 0 then .ok (.start 0 0)
  else if w = 1 then .ok .reset
  else if w = 3 then .ok .pop
  else .error .noControlStep

/-- START with its operands: condition 000 in bits 7..0, cfg_interval in bits 15..8, cfg_nodivars above. -/
def decodeStart (w : Widths) (x : BitVec (16 + w.nvW)) : Except DecodeError Instr :=
  if x.extractLsb' 0 8 = 0 then .ok (.start (x.extractLsb' 16 w.nvW).toNat (x.extractLsb' 8 8))
  else .error .noControlStep

/-- Token `i` of a REC, the first token the most significant (R69). -/
def recToken (w : BitVec 54) (i : Nat) : TokenBits := w.extractLsb' (45 - 9 * i) 9

/-- REC: six BYTE tokens; their bytes, first token first, are the literal (R69). -/
def decodeRec (w : BitVec 54) : Except DecodeError Instr :=
  if (List.range 6).any (fun i => (recToken w i).getLsbD 8) then .error .recNotBytes
  else
    .ok (.recLine ((recToken w 0).extractLsb' 0 8 ++ (recToken w 1).extractLsb' 0 8 ++
      (recToken w 2).extractLsb' 0 8 ++ (recToken w 3).extractLsb' 0 8 ++
      (recToken w 4).extractLsb' 0 8 ++ (recToken w 5).extractLsb' 0 8))

/-- An output token's bits (R64): data lowest, then col, ticks, reactor, eor, sor, trunc_row,
trunc_record, eos. -/
def decodeOutputToken (w : Widths) (x : BitVec (64 + w.reactorW + w.nvW + 13)) :
    Except DecodeError Instr :=
  let data := x.extractLsb' 0 64
  let col := x.extractLsb' 64 w.nvW
  let ticks := x.extractLsb' (64 + w.nvW) 8
  let reactor := x.extractLsb' (72 + w.nvW) w.reactorW
  let flag := fun k => x.getLsbD (72 + w.nvW + w.reactorW + k)
  if flag 4 then
    if flag 0 || flag 1 || data != 0 then .error .fixedFieldSet
    else .ok (.endTok (flag 3) (flag 2) reactor.toNat ticks col.toNat)
  else
    if flag 2 || flag 3 then .error .fixedFieldSet
    else .ok (.value (flag 1) (flag 0) reactor.toNat ticks col.toNat data)

/-- The operation a word asks for, at the widths `w`, while the block's byte index is `bidx`: total, every
word that is none is rejected by name. `bidx` says only which row a BYTE token is. -/
def decode (w : Widths) (bidx : BitVec 3) (x : EncWord) : Except DecodeError Instr :=
  if 2 ^ x.format.width w ≤ x.bits then .error .strayBits
  else
    match x.format with
    | .control => decodeControl x.bits
    | .inputToken => .ok (decodeToken bidx (BitVec.ofNat 9 x.bits))
    | .startPorts => decodeStart w (BitVec.ofNat (16 + w.nvW) x.bits)
    | .packedReal => .ok (decodePackedReal (BitVec.ofNat 48 x.bits))
    | .recTokens => decodeRec (BitVec.ofNat 54 x.bits)
    | .outputToken => decodeOutputToken w (BitVec.ofNat (64 + w.reactorW + w.nvW + 13) x.bits)
    | .other _ => .error .noFormat

/-- The table's view: the word of a row, at R6's defaults, read at the start of a record (`bidx = 0`, log
entry 7). -/
def decodeTableWord (nbits w : Nat) : Option Instr :=
  (decode Widths.default 0 ⟨Format.ofLength nbits, w⟩).toOption

/-! ### Encoding -/

/-- The format an operation's word is written in. -/
def Instr.format : Instr → Format
  | .decode48Zero => .packedReal
  | .decode48Normal _ _ _ => .packedReal
  | .byteStore _ => .inputToken
  | .byteComplete _ => .inputToken
  | .eos => .inputToken
  | .recLine _ => .recTokens
  | .start _ _ => .startPorts
  | .pop => .control
  | .reset => .control
  | .value _ _ _ _ _ _ => .outputToken
  | .endTok _ _ _ _ _ => .outputToken

/-- BYTE(b) as nine bits (R63). -/
def byteToken (b : Byte) : TokenBits := 0#1 ++ b

/-- EOS as nine bits; in_data is ignored, the encoder writes 0 (R63; log entry 14). -/
def eosToken : TokenBits := 0x100#9

/-- The six tokens of a REC, the first the most significant (R69). -/
def recBits (p : PackedReal) : BitVec 54 :=
  byteToken (literalByte p 0) ++ byteToken (literalByte p 1) ++ byteToken (literalByte p 2) ++
    byteToken (literalByte p 3) ++ byteToken (literalByte p 4) ++ byteToken (literalByte p 5)

/-- The output token as one vector, most significant field first (R64). -/
def outputTokenBits (w : Widths) (eos truncRecord truncRow sor eor : Bool) (reactor : BitVec w.reactorW)
    (ticks : BitVec 8) (col : BitVec w.nvW) (data : Binary64) :
    BitVec (1 + 1 + 1 + 1 + 1 + w.reactorW + 8 + w.nvW + 64) :=
  BitVec.ofBool eos ++ BitVec.ofBool truncRecord ++ BitVec.ofBool truncRow ++ BitVec.ofBool sor ++
    BitVec.ofBool eor ++ reactor ++ ticks ++ col ++ data

/-- The bits of an operation's word, at the widths `w`. -/
def Instr.bits (w : Widths) : Instr → Nat
  | .decode48Zero => 0
  | .decode48Normal e s m => (assembleReal e s m).toNat
  | .byteStore b => (byteToken b).toNat
  | .byteComplete b => (byteToken b).toNat
  | .eos => eosToken.toNat
  | .recLine p => (recBits p).toNat
  | .start nodivars iv => (BitVec.ofNat w.nvW nodivars ++ iv ++ 0#8).toNat
  | .pop => 3
  | .reset => 1
  | .value sor eor reactor ticks col data =>
      (outputTokenBits w false false false sor eor (BitVec.ofNat _ reactor) ticks
        (BitVec.ofNat _ col) data).toNat
  | .endTok truncRecord truncRow reactor ticks col =>
      (outputTokenBits w true truncRecord truncRow false false (BitVec.ofNat _ reactor) ticks
        (BitVec.ofNat _ col) 0).toNat

/-- The word of an operation, at the widths `w`. -/
def encode (w : Widths) (i : Instr) : EncWord := ⟨i.format, i.bits w⟩

/-- The byte indices at which a word is read as the row `i`: any, but for the two rows of a BYTE token
(table column "condition"). -/
def Instr.rowAt (i : Instr) (bidx : BitVec 3) : Bool :=
  match i with
  | .byteStore _ => bidx < 5
  | .byteComplete _ => !(bidx < 5)
  | .decode48Zero => true
  | .decode48Normal _ _ _ => true
  | .eos => true
  | .recLine _ => true
  | .start _ _ => true
  | .pop => true
  | .reset => true
  | .value _ _ _ _ _ _ => true
  | .endTok _ _ _ _ _ => true

end Sys2Proof
end

