-- ==== Sys2Proof/Machine/State.lean ====
section
/-! DEFINITION. The state of record_stream_decoder at given widths: the twelve elements of 10_state.md R21, and beside
them the model's own record of the environment; its value at reset (R33); the machine, which is a block with the
widths it was built with (00_scope.md R6); the reasons a step can stop. -/

namespace Sys2Proof.Machine

/-- The sequencer's mode (R22). -/
inductive Phase where
  /-- After reset, configuration not yet latched. -/
  | init
  /-- Input tokens are accepted. -/
  | run
  /-- The end-of-stream token has been accepted. -/
  | done
  /-- The configuration was refused. -/
  | fault
deriving DecidableEq, Repr

/-- The two-bit code of a phase (R22, R67). -/
def Phase.code : Phase → BitVec 2
  | .init => 0
  | .run => 1
  | .done => 2
  | .fault => 3

/-- The output token, field by field (R64). -/
structure OutTok (w : Widths) where
  eos : Bool
  truncRecord : Bool
  truncRow : Bool
  sor : Bool
  eor : Bool
  reactor : BitVec w.reactorW
  ticks : BitVec 8
  col : BitVec w.nvW
  data : Binary64
deriving DecidableEq, Repr

/-- What the environment does next. -/
inductive Stimulus (w : Widths) where
  /-- A rising edge of clk with these values on the input ports (R100). -/
  | edge (p : Pins w)
  /-- One operation of spec/opcode_table.json, asked for by its word: the untimed view of R100, and
  the way a PackedReal reaches a decoder that stands alone (log entries 5 and 6). -/
  | word (x : EncWord)
deriving DecidableEq, Repr

/-- A block of the widths `w`: R21's twelve elements, then the model's own fields. -/
structure Block (w : Widths) where
  /-- Sequencer mode (R22). -/
  phase : Phase
  /-- Latched NoDiVars (R23). -/
  cfgNv : BitVec w.nvW
  /-- Latched dataInterval, the minute count (R23). -/
  cfgIv : BitVec 8
  /-- Bytes 0 to 4 of the record being assembled (R24). -/
  sr : Vector Byte 5
  /-- Number of bytes of the current record already held (R24). -/
  bidx : BitVec 3
  /-- Number of values of the current row already produced (R25). -/
  col : BitVec w.nvW
  /-- Rows completed for the current reactor (R26). -/
  rowsPrinted : BitVec 8
  /-- Reactor index (R27). -/
  reactor : BitVec w.reactorW
  /-- Total decoded values so far (R28). -/
  numbersRead : BitVec w.numreadW
  /-- Sticky error bits (R29). -/
  err : BitVec 3
  /-- The output holding register holds a token not yet taken (R30). -/
  oValid : Bool
  /-- The token held (R30). -/
  oTok : OutTok w
  /-- MODEL'S OWN: what the environment does next, first element next (log entry 2). -/
  stim : List (Stimulus w)
  /-- MODEL'S OWN: how many edges were driven by `Config.freePins` (log entry 3). -/
  freeEdges : Nat
  /-- MODEL'S OWN: the bytes transferred on the input port since the last RESET, R54's source as far
  as it has been taken (log entry 4). -/
  taken : List Byte
  /-- MODEL'S OWN: the tokens delivered since the last RESET, what R157 says a run produced (log entry 4). -/
  delivered : List (OutTok w)
  /-- MODEL'S OWN: the results a stand-alone custom_fp_decoder has driven (log entry 5). -/
  results : List Binary64
deriving DecidableEq, Repr

/-- The token with every field 0: the reset value of o_tok (R33). -/
def OutTok.zero (w : Widths) : OutTok w where
  eos := false
  truncRecord := false
  truncRow := false
  sor := false
  eor := false
  reactor := 0
  ticks := 0
  col := 0
  data := 0

/-- The block right after RESET: R33's table. The model's own fields are empty. -/
def Block.reset (w : Widths) : Block w where
  phase := .init
  cfgNv := 0
  cfgIv := 0
  sr := Vector.replicate 5 0
  bidx := 0
  col := 0
  rowsPrinted := 0
  reactor := 1
  numbersRead := 0
  err := 0
  oValid := false
  oTok := .zero w
  stim := []
  freeEdges := 0
  taken := []
  delivered := []
  results := []

/-- The machine: the widths the block was built with, and the block. No operation and no step writes
`widths` (log entry 1). -/
structure State where
  /-- MODEL'S OWN: NV_W, REACTOR_W and NUMREAD_W of this implementation (R6; log entry 1). -/
  widths : Widths
  /-- The block, every register at these widths. -/
  block : Block widths
deriving DecidableEq, Repr

/-- The machine right after RESET, at R6's defaults. `Block.reset` is the block right after RESET at any
other widths (log entry 1). -/
def State.reset : State := ⟨Widths.default, Block.reset Widths.default⟩

/-- Why the model stops where the spec gives no effect. No state that a run reaches raises one. -/
inductive Fault where
  /-- Raised by BYTE.STORE with bidx at least 5 and by BYTE.COMPLETE with bidx other than 5: the row's
  rule does not cover that byte index (R102, R103; R24: 6 and 7 are never reached). Safe. -/
  | byteRowMismatch
  /-- Raised by RowComplete when cfg_iv is not 10, 15 or 30: dpd is computed only for these (R23, R113).
  Safe. -/
  | intervalNotLegal
deriving DecidableEq, Repr

/-- Why the model gives a stimulus no meaning. -/
inductive Refusal where
  /-- Raised by an arm of exec whose instruction has no meaning yet. Safe. -/
  | notModelled (mnemonic : String)
  /-- Raised by step on a word that is of no format of the table, for the named reason. Safe: the word
  stands for no operation of the spec. -/
  | notAWord (why : DecodeError)
deriving DecidableEq, Repr

end Sys2Proof.Machine
end

