-- ==== Sys2Proof/Machine/Operands.lean ====
section
/-! DEFINITION. What an operation reads: the record in flight, the tags of the current row, dataPerDay, and the
conditions under which a step is enabled (10_state.md R23 to R25; 41_stream.md R100). -/

namespace Sys2Proof.Machine

variable {w : Widths}

/-- The 48-bit value of six bytes in stream order (R8(c), R43). -/
def packBytes (b0 b1 b2 b3 b4 b5 : Byte) : PackedReal := b0 ++ b1 ++ b2 ++ b3 ++ b4 ++ b5

/-- The record that the arriving byte `b` completes: `{sr[0], .., sr[4], b}` (R103). -/
def Block.record (s : Block w) (b : Byte) : PackedReal :=
  packBytes s.sr[0] s.sr[1] s.sr[2] s.sr[3] s.sr[4] b

/-- `cfg_iv` is a member of INTERVALS (R5, R23, R66). -/
def legalInterval (iv : BitVec 8) : Bool := Config.intervals.contains iv.toNat

/-- `NoDiVars` is at least MIN_NODIVARS (R5, R23, R66). -/
def legalNoDiVars (nv : BitVec w.nvW) : Bool := Config.minNoDiVars ≤ nv.toNat

/-- `dpd = 1440 div cfg_iv`, computed only for a legal interval (R23, R105, R113). -/
def dataPerDay (iv : BitVec 8) : Option Nat :=
  if legalInterval iv then some (Config.dayMinutes / iv.toNat) else none

/-- `last = (col = cfg_nv - 1)` (R103). -/
def Block.lastColumn (s : Block w) : Bool := s.col == s.cfgNv - 1

/-- `sor`: the value is the first of its row (R103). -/
def Block.firstColumn (s : Block w) : Bool := s.col == 0

/-- `BYTE` and `EOS` are enabled iff phase = RUN and o_valid = 0 (R100, R102, R106). -/
def Block.inputEnabled (s : Block w) : Bool := s.phase == .run && !s.oValid

end Sys2Proof.Machine
end

