-- ==== Sys2Proof/Machine/Flags.lean ====
section
/-! DEFINITION. The block's only flags, the three sticky bits of err (10_state.md R29; 60_exceptions.md R130): the
conditions that set them, and the write of one bit. -/

namespace Sys2Proof.Machine

variable {w : Widths}

/-- The three error conditions (R130). -/
inductive Condition where
  | invalidConfiguration
  | unsupportedInterval
  | truncatedRecord
deriving DecidableEq, Repr

/-- The bit of err that belongs to a condition (R67, R130). -/
def Condition.bit : Condition → Nat
  | .invalidConfiguration => 0
  | .unsupportedInterval => 1
  | .truncatedRecord => 2

/-- The phase a raised condition leads to (R131, R132, R133, R137). -/
def Condition.phaseAfter : Condition → Phase
  | .invalidConfiguration => .fault
  | .unsupportedInterval => .fault
  | .truncatedRecord => .done

/-- `err[c] <- v`: the other two bits keep their values. -/
def writeErr (c : Condition) (v : Bool) (err : BitVec 3) : BitVec 3 :=
  if v then err ||| (1#3 <<< c.bit) else err &&& ~~~(1#3 <<< c.bit)

/-- `bad_nv = (cfg_nodivars = 0)` (R101, R131). -/
def badNoDiVars (nv : BitVec w.nvW) : Bool := !legalNoDiVars nv

/-- `bad_iv`: cfg_interval is none of 10, 15, 30 (R101, R132). -/
def badInterval (iv : BitVec 8) : Bool := !legalInterval iv

/-- `tr = (bidx != 0)`: 1 to 5 bytes belong to no record (R106). -/
def Block.recordOpen (s : Block w) : Bool := s.bidx != 0

/-- `tw = (col != 0)`: some values belong to no completed row (R106). -/
def Block.rowOpen (s : Block w) : Bool := s.col != 0

end Sys2Proof.Machine
end

