-- ==== Sys2Proof/Machine/PackedReal.lean ====
section
/-! DEFINITION. The combinational block custom_fp_decoder: DECODE48 and its stages (40_decode.md R80 to R88). -/

namespace Sys2Proof.Machine

/-- Zero-check: all 48 bits are 0 (R81). -/
def zeroCheck (p : PackedReal) : Bool := p == 0

/-- Bias offset as hardware: the binary64 biased exponent `X = zext_11(E) + 894` (R83). -/
def biasOffset (e : BitVec 8) : BitVec 11 := e.setWidth 11 + 894

/-- Bias offset as a value: the true exponent `e = E - 129`, exact (R83). -/
def trueExponent (e : BitVec 8) : Int := (e.toNat : Int) - Config.expBias

/-- Packing: `d = {s, X, M, 13'b0}` (R88). -/
def packBinary64 (s : Bool) (x : BitVec 11) (m : BitVec 39) : Binary64 :=
  BitVec.ofBool s ++ x ++ m ++ 0#13

/-- `DECODE48(P)` as bits (R80, second form). -/
def decode48 (p : PackedReal) : Binary64 :=
  if zeroCheck p then 0
  else packBinary64 (signField p) (biasOffset (exponentField p)) (mantissaField p)

end Sys2Proof.Machine
end

