-- ==== Sys2Proof/Machine/Ops.lean ====
section
/-! DEFINITION. The named operations over the state: the holding register (00_scope.md R9 OutPush; 41_stream.md
R107), the assembly register (R102), the record and row bookkeeping (R103, R105), raising an error
condition (60_exceptions.md R137) and the only way back from one, reset (R138, 70_reset_and_hazards.md R150).
Every right-hand side reads the state before the operation (R9). -/

namespace Sys2Proof.Machine

variable {w : Widths}

/-- Sequencing: go on with `f` where the first part answers a next state. -/
def andThen {α β : Type} (o : Host.Outcome α Fault Refusal) (f : α → Host.Outcome β Fault Refusal) :
    Host.Outcome β Fault Refusal :=
  match o with
  | .next s => f s
  | .fault r => .fault r
  | .refused r => .refused r

/-- An operation of the block as an operation of the machine: the widths stay (R6). -/
def State.onBlock (s : State) (f : Block s.widths → Host.Outcome (Block s.widths) Fault Refusal) :
    Host.Outcome State Fault Refusal :=
  andThen (f s.block) fun k => .next ⟨s.widths, k⟩

/-- `OutPush(t)`: `o_tok <- t; o_valid <- 1` (R9, R30). -/
def outPush (t : OutTok w) (s : Block w) : Block w := { s with oTok := t, oValid := true }

/-- `POP`: deliver o_tok, `o_valid <- 0`; o_tok keeps its bits (R107). -/
def popToken (s : Block w) : Block w :=
  { s with oValid := false, delivered := s.delivered ++ [s.oTok] }

/-- The transfer of a byte on the input port, seen from the producer (R41, R48; log entry 4). -/
def takeByte (b : Byte) (s : Block w) : Block w := { s with taken := s.taken ++ [b] }

/-- `sr[bidx] <- b; bidx <- bidx + 1` (R102). -/
def storeByte (b : Byte) (s : Block w) : Block w :=
  { s with sr := s.sr.setIfInBounds s.bidx.toNat b, bidx := s.bidx + 1 }

/-- The VALUE token of the record `p`, tagged from the state before the step (R64, R103, R104). -/
def valueToken (p : PackedReal) (s : Block w) : OutTok w where
  eos := false
  truncRecord := false
  truncRow := false
  sor := s.firstColumn
  eor := s.lastColumn
  reactor := s.reactor
  ticks := s.rowsPrinted
  col := s.col
  data := decode48 p

/-- The END token, from the state before the step (R64, R106). -/
def endToken (s : Block w) : OutTok w where
  eos := true
  truncRecord := s.recordOpen
  truncRow := s.rowOpen
  sor := false
  eor := false
  reactor := s.reactor
  ticks := s.rowsPrinted
  col := s.col
  data := 0

/-- `RowComplete` (R105): roll over to the next reactor when `rowsPrinted > dpd`, a strict comparison of
the value before the update (90_conflicts.md C7); else count the row. -/
def rowComplete (s : Block w) : Host.Outcome (Block w) Fault Refusal :=
  match dataPerDay s.cfgIv with
  | none => .fault .intervalNotLegal
  | some dpd =>
    if dpd < s.rowsPrinted.toNat then .next { s with rowsPrinted := 0, reactor := s.reactor + 1 }
    else .next { s with rowsPrinted := s.rowsPrinted + 1 }

/-- `col + 1`, or back to 0 and `RowComplete` after the last value of a row (R103, R105). -/
def advanceColumn (s : Block w) : Host.Outcome (Block w) Fault Refusal :=
  if s.lastColumn then rowComplete { s with col := 0 } else .next { s with col := s.col + 1 }

/-- The byte that completes a record: push its VALUE token, count it, start the next record (R103). -/
def completeRecord (b : Byte) (s : Block w) : Host.Outcome (Block w) Fault Refusal :=
  advanceColumn
    { outPush (valueToken (s.record b) s) s with bidx := 0, numbersRead := s.numbersRead + 1 }

/-- The token BYTE(b) taken by the sequencer, whichever of the two rows it is, or a stop where neither
rule covers the byte index (R102, R103; log entry 7). -/
def acceptByte (b : Byte) (s : Block w) : Host.Outcome (Block w) Fault Refusal :=
  if s.bidx < 5 then .next (storeByte b (takeByte b s))
  else if s.bidx = 5 then completeRecord b (takeByte b s)
  else .fault .byteRowMismatch

/-- One transfer of the token BYTE(b) (R41, R69): a full holding register is popped at the same edge
first, as an input transfer demands (R100; log entry 10). -/
def transferByte (b : Byte) (s : Block w) : Host.Outcome (Block w) Fault Refusal :=
  acceptByte b (if s.oValid then popToken s else s)

/-- `raise c`, this block's trap entry (R9, R137): set the condition's bit and move the phase. No
program counter is saved, no handler exists. -/
def raise (c : Condition) (s : Block w) : Block w :=
  { s with err := writeErr c true s.err, phase := c.phaseAfter }

/-- `raise c` where the condition holds; else its bit is written 0 (R101, R106). -/
def raiseIf (c : Condition) (holds : Bool) (s : Block w) : Block w :=
  if holds then raise c s else { s with err := writeErr c false s.err }

/-- RESET, and the only return from FAULT and DONE (R138, R150): every element of R21 takes R33's value.
The stimuli still to come and the stand-alone decoder's results are not the block's; a new run's
record of transfers begins empty (log entry 4). -/
def resetBlock (s : Block w) : Block w :=
  { Block.reset w with stim := s.stim, freeEdges := s.freeEdges, results := s.results }

/-- START's latch and check (R101): `err[0]`, `err[1]` and the phase follow from the two values. -/
def latchConfig (nv : BitVec w.nvW) (iv : BitVec 8) (s : Block w) : Block w :=
  raiseIf .unsupportedInterval (badInterval iv)
    (raiseIf .invalidConfiguration (badNoDiVars nv) { s with cfgNv := nv, cfgIv := iv, phase := .run })

/-- EOS: push the END token, `phase <- DONE`, raise TruncatedRecord if a record or a row is open (R106). -/
def endStream (s : Block w) : Block w :=
  raiseIf .truncatedRecord (s.recordOpen || s.rowOpen)
    { outPush (endToken s) s with phase := .done }

end Sys2Proof.Machine
end

