-- ==== Sys2Proof/Machine/Control.lean ====
section
/-! DEFINITION. The steps that no input token triggers: START, POP and RESET (41_stream.md R101, R107;
70_reset_and_hazards.md R150). A step that is not enabled changes nothing (R100, R108). -/

namespace Sys2Proof.Machine

/-- `START`: enabled iff phase = INIT (R101). The NV_W wires of cfg_nodivars carry the operand's low bits
(R52; log entry 17). -/
def execStart (nodivars : Nat) (iv : BitVec 8) (s : State) : Host.Outcome State Fault Refusal :=
  s.onBlock fun k =>
    if k.phase = .init then .next (latchConfig (BitVec.ofNat _ nodivars) iv k) else .next k

/-- `POP`: enabled iff o_valid = 1 (R107). -/
def execPop (s : State) : Host.Outcome State Fault Refusal :=
  s.onBlock fun k => if k.oValid then .next (popToken k) else .next k

/-- `RESET`: always enabled (R100, R150). -/
def execReset (s : State) : Host.Outcome State Fault Refusal :=
  s.onBlock fun k => .next (resetBlock k)

end Sys2Proof.Machine
end

