-- ==== Sys2Proof/Machine/Decoder.lean ====
section
/-! DEFINITION. The operation DECODE48 on a decoder that stands alone (40_decode.md R80, R95): it reads its 48 bits,
drives its 64 bits, and changes nothing of the wrapper (10_state.md R20). -/

namespace Sys2Proof.Machine

/-- A stand-alone decoder drives `DECODE48(p)` (R80; log entry 5). -/
def driveResult {w : Widths} (p : PackedReal) (k : Block w) : Block w :=
  { k with results := k.results ++ [decode48 p] }

/-- `DECODE48.ZERO`: the zero-check fires, the result is `+0.0` (R81). -/
def execDecode48Zero (s : State) : Host.Outcome State Fault Refusal :=
  s.onBlock fun k => .next (driveResult 0 k)

/-- `DECODE48.NORMAL`: the result for the pattern with these fields (R80, R82 to R88). -/
def execDecode48Normal (e : BitVec 8) (sgn : Bool) (m : BitVec 39) (s : State) :
    Host.Outcome State Fault Refusal :=
  s.onBlock fun k => .next (driveResult (assembleReal e sgn m) k)

end Sys2Proof.Machine
end

