-- ==== Sys2Proof/Machine/Input.lean ====
section
/-! DEFINITION. The input side of the sequencer: BYTE.STORE, BYTE.COMPLETE, EOS and the pseudo-operation REC
(41_stream.md R102, R103, R106; 30_encoding.md R69). A token offered while the step is not enabled is not
taken and nothing changes (R41, R108). -/

namespace Sys2Proof.Machine

/-- `BYTE.STORE`: BYTE(b) with bidx < 5 (R102). -/
def execByteStore (b : Byte) (s : State) : Host.Outcome State Fault Refusal :=
  s.onBlock fun k =>
    if k.inputEnabled then
      if k.bidx < 5 then .next (storeByte b (takeByte b k)) else .fault .byteRowMismatch
    else .next k

/-- `BYTE.COMPLETE`: BYTE(b) with bidx = 5 (R103). -/
def execByteComplete (b : Byte) (s : State) : Host.Outcome State Fault Refusal :=
  s.onBlock fun k =>
    if k.inputEnabled then
      if k.bidx = 5 then completeRecord b (takeByte b k) else .fault .byteRowMismatch
    else .next k

/-- `EOS` (R106). -/
def execEos (s : State) : Host.Outcome State Fault Refusal :=
  s.onBlock fun k => if k.inputEnabled then .next (endStream k) else .next k

/-- `REC`: six transfers, the bytes of the literal left to right (R69). Outside RUN no transfer can
happen and nothing changes (R41, R108). -/
def execRecLine (p : PackedReal) (s : State) : Host.Outcome State Fault Refusal :=
  s.onBlock fun k =>
    if k.phase = .run then
      andThen (transferByte (literalByte p 0) k) fun k1 =>
      andThen (transferByte (literalByte p 1) k1) fun k2 =>
      andThen (transferByte (literalByte p 2) k2) fun k3 =>
      andThen (transferByte (literalByte p 3) k3) fun k4 =>
      andThen (transferByte (literalByte p 4) k4) fun k5 =>
      transferByte (literalByte p 5) k5
    else .next k

end Sys2Proof.Machine
end

