-- ==== Sys2Proof/Machine/Output.lean ====
section
/-! DEFINITION. The two rows that are output token formats (30_encoding.md R64). The one thing the spec has the block
do with such a token is OutPush (00_scope.md R9), inside BYTE.COMPLETE and EOS; that push, under the
condition of those two steps, is the meaning given here (log entry 11). The token's tags are as wide as the
block's (R64; log entry 17). -/

namespace Sys2Proof.Machine

/-- Push a token under the condition of the steps that push one; a full holding register is never
overwritten (R32(h), R49, R100). -/
def pushWhenEnabled {w : Widths} (t : OutTok w) (k : Block w) : Block w :=
  if k.inputEnabled then outPush t k else k

/-- `VALUE`: `OutPush(VALUE{..})` (R9, R64, R103). -/
def execValue (sor eor : Bool) (reactor : Nat) (ticks : BitVec 8) (col : Nat) (data : Binary64)
    (s : State) : Host.Outcome State Fault Refusal :=
  s.onBlock fun k => .next (pushWhenEnabled
    { eos := false, truncRecord := false, truncRow := false, sor := sor, eor := eor,
      reactor := BitVec.ofNat _ reactor, ticks := ticks, col := BitVec.ofNat _ col, data := data } k)

/-- `END`: `OutPush(END{..})` (R9, R64, R106). -/
def execEndTok (truncRecord truncRow : Bool) (reactor : Nat) (ticks : BitVec 8) (col : Nat)
    (s : State) : Host.Outcome State Fault Refusal :=
  s.onBlock fun k => .next (pushWhenEnabled
    { eos := true, truncRecord := truncRecord, truncRow := truncRow, sor := false, eor := false,
      reactor := BitVec.ofNat _ reactor, ticks := ticks, col := BitVec.ofNat _ col, data := 0 } k)

end Sys2Proof.Machine
end

