-- ==== Sys2Proof/Machine/Dispatch.lean ====
section
/-! DEFINITION. One arm per row of spec/opcode_table.json. -/

namespace Sys2Proof.Machine

def exec (i : Instr) (s : State) : Host.Outcome State Fault Refusal :=
  match i with
  | .decode48Zero => Sys2Proof.Machine.execDecode48Zero s
  | .decode48Normal e sgn m => Sys2Proof.Machine.execDecode48Normal e sgn m s
  | .byteStore b => Sys2Proof.Machine.execByteStore b s
  | .byteComplete b => Sys2Proof.Machine.execByteComplete b s
  | .eos => Sys2Proof.Machine.execEos s
  | .recLine p => Sys2Proof.Machine.execRecLine p s
  | .start nv iv => Sys2Proof.Machine.execStart nv iv s
  | .pop => Sys2Proof.Machine.execPop s
  | .reset => Sys2Proof.Machine.execReset s
  | .value sor eor reactor ticks col data => Sys2Proof.Machine.execValue sor eor reactor ticks col data s
  | .endTok truncRecord truncRow reactor ticks col => Sys2Proof.Machine.execEndTok truncRecord truncRow reactor ticks col s

end Sys2Proof.Machine
end

