-- ==== Sys2Proof/Machine/Ports.lean ====
section
/-! DEFINITION. The ports of the block (20_memory.md R41, R47, R53): every output as a function of the state, and of
out_ready for in_ready alone (70_reset_and_hazards.md R155); the two kinds of transfer. -/

namespace Sys2Proof.Machine

variable {w : Widths}

/-- `in_ready = (phase = RUN) and (o_valid = 0 or out_ready = 1)` (R41). -/
def Block.inReady (s : Block w) (outReady : Bool) : Bool := s.phase == .run && (!s.oValid || outReady)

/-- `out_valid = o_valid` (R47). -/
def Block.outValid (s : Block w) : Bool := s.oValid

/-- `out_eos` (R47). -/
def Block.outEos (s : Block w) : Bool := s.oTok.eos

/-- `out_data` (R47). -/
def Block.outData (s : Block w) : Binary64 := s.oTok.data

/-- `out_reactor` (R47). -/
def Block.outReactor (s : Block w) : BitVec w.reactorW := s.oTok.reactor

/-- `out_ticks` (R47). -/
def Block.outTicks (s : Block w) : BitVec 8 := s.oTok.ticks

/-- `out_col` (R47). -/
def Block.outCol (s : Block w) : BitVec w.nvW := s.oTok.col

/-- `out_sor` (R47). -/
def Block.outSor (s : Block w) : Bool := s.oTok.sor

/-- `out_eor` (R47). -/
def Block.outEor (s : Block w) : Bool := s.oTok.eor

/-- `out_trunc_record` (R47). -/
def Block.outTruncRecord (s : Block w) : Bool := s.oTok.truncRecord

/-- `out_trunc_row` (R47). -/
def Block.outTruncRow (s : Block w) : Bool := s.oTok.truncRow

/-- `st_phase = phase` (R53). -/
def Block.stPhase (s : Block w) : BitVec 2 := s.phase.code

/-- `st_err = err` (R53). -/
def Block.stErr (s : Block w) : BitVec 3 := s.err

/-- `st_numbers_read = numbersRead` (R53). -/
def Block.stNumbersRead (s : Block w) : BitVec w.numreadW := s.numbersRead

/-- The offered input token as nine bits (R63). -/
def tokenOf (p : Pins w) : TokenBits := BitVec.ofBool p.inEos ++ p.inData

/-- An input transfer happens at this edge (R41). -/
def inputTransfer (p : Pins w) (s : Block w) : Bool := !p.rst && p.inValid && s.inReady p.outReady

/-- An output transfer happens at this edge (R47). -/
def outputTransfer (p : Pins w) (s : Block w) : Bool := !p.rst && s.outValid && p.outReady

end Sys2Proof.Machine
end

