-- ==== Sys2Proof/Machine/Edge.lean ====
section
/-! DEFINITION. What one rising edge performs (41_stream.md R100): the operations, in order, decided by the pins, the
phase, the holding register and the byte index; and what a word placed for the next step needs in order to be
enabled there. -/

namespace Sys2Proof.Machine

variable {w : Widths}

/-- R100: RESET first; else START in INIT; else POP, then the input-side step. A BYTE token is the row
that the byte index says (R102, R103). -/
def edgeOps (p : Pins w) (s : Block w) : List Instr :=
  if p.rst then [.reset]
  else if s.phase = .init then [.start p.cfgNodivars.toNat p.cfgInterval]
  else
    (if outputTransfer p s then [.pop] else []) ++
      (if inputTransfer p s then [decodeToken s.bidx (tokenOf p)] else [])

/-- A state in which tokens are taken: as it is in RUN, else with a legal configuration latched; the
holding register empty (log entry 12). -/
def Block.openForInput (s : Block w) : Block w :=
  if s.phase = .run then { s with oValid := false }
  else { s with phase := .run, cfgNv := 1, cfgIv := 10, oValid := false }

/-- What the condition column of the table asks of the state, so that the operation is performed and
not merely offered (log entry 12). -/
def Block.enabledFor (s : Block w) : Instr → Block w
  | .decode48Zero => s
  | .decode48Normal _ _ _ => s
  | .byteStore _ => s.openForInput
  | .byteComplete _ => s.openForInput
  | .eos => s.openForInput
  | .recLine _ => s.openForInput
  | .start _ _ => { s with phase := .init }
  | .pop => { s with oValid := true, phase := if s.phase = .init then .run else s.phase }
  | .reset => s
  | .value _ _ _ _ _ _ => s.openForInput
  | .endTok _ _ _ _ _ => s.openForInput

end Sys2Proof.Machine
end

