-- ==== Sys2Proof/Machine/Step.lean ====
section
/-! DEFINITION. One step of the machine: one rising edge of clk (41_stream.md R100), or one operation asked for by
its word (the untimed view of the same rule; log entry 6). -/

namespace Sys2Proof.Machine

/-- The operations of one edge, performed in order. -/
def runOps : List Instr → State → Host.Outcome State Fault Refusal
  | [], s => .next s
  | i :: rest, s => andThen (exec i s) (runOps rest)

/-- One rising edge with these values on the input ports (R100). -/
def clockEdge {w : Widths} (p : Pins w) (k : Block w) : Host.Outcome State Fault Refusal :=
  runOps (edgeOps p k) ⟨w, k⟩

/-- One step of a block of the widths `w`: the next stimulus. Where none is listed, an edge comes whose pins
are free (log entry 3). -/
def stepBlock {w : Widths} (k : Block w) : Host.Outcome State Fault Refusal :=
  match k.stim with
  | [] => clockEdge (Config.freePins w k.freeEdges) { k with freeEdges := k.freeEdges + 1 }
  | .edge p :: rest => clockEdge p { k with stim := rest }
  | .word x :: rest =>
    match decode w k.bidx x with
    | .ok i => exec i ⟨w, { k with stim := rest }⟩
    | .error e => .refused (.notAWord e)

/-- One step of the machine. -/
def step (s : State) : Host.Outcome State Fault Refusal := stepBlock s.block

/-- `k` with the word placed as the next stimulus, and what the operation's condition asks of the state
(log entry 12). -/
def Block.withWord {w : Widths} (k : Block w) (x : EncWord) : Block w :=
  let t := match decode w k.bidx x with
    | .ok i => k.enabledFor i
    | .error _ => k
  { t with stim := .word x :: k.stim }

/-- `s` with the table's word placed as the next stimulus, in the format its length names (log entry 12). -/
def State.withFetchWord (s : State) (nbits w : Nat) : State :=
  ⟨s.widths, s.block.withWord ⟨Format.ofLength nbits, w⟩⟩

end Sys2Proof.Machine
end

