-- ==== Sys2Proof/Machine/Binary64.lean ====
section
/-! DEFINITION. What the bits mean as exact rationals: binary64 (30_encoding.md R65), DECODE48 as a value
(40_decode.md R80, first form; R86, R87) and the source's bit-serial mantissa loop (R85). No rule rounds
anything (R9, R90). -/

namespace Sys2Proof.Machine

/-- The value of a binary64 word, none for an infinity or a NaN (R65). -/
def binary64Value (d : Binary64) : Option ℚ :=
  let x := (d.extractLsb' 52 11).toNat
  let f := (d.extractLsb' 0 52).toNat
  let sgn : ℚ := if d.getLsbD 63 then -1 else 1
  if x = 2047 then none
  else if x = 0 then some (sgn * ((f : ℚ) / 2 ^ 52) * (2 : ℚ) ^ (-1022 : Int))
  else some (sgn * (1 + (f : ℚ) / 2 ^ 52) * (2 : ℚ) ^ ((x : Int) - 1023))

/-- The fraction `m = M / 2^39` (R84). -/
def mantissaValue (m : BitVec 39) : ℚ := (m.toNat : ℚ) / 2 ^ 39

/-- The magnitude `v = (1 + m) * 2^e` (R86). -/
def magnitudeValue (p : PackedReal) : ℚ :=
  (1 + mantissaValue (mantissaField p)) * (2 : ℚ) ^ trueExponent (exponentField p)

/-- `DECODE48_value(P)` (R80, first form; the sign is applied to the final magnitude, R87). -/
def decode48Value (p : PackedReal) : ℚ :=
  if p = 0 then 0
  else if signField p then -magnitudeValue p
  else magnitudeValue p

/-- The loop of R85 over mantissa bits `i, i+1, ..`: `n` bits to go, the next worth `w`. -/
def mantissaLoop (m : BitVec 39) : (n i : Nat) → (acc w : ℚ) → ℚ
  | 0, _, acc, _ => acc
  | n + 1, i, acc, w =>
    mantissaLoop m n (i + 1) (if m.getLsbD (38 - i) then acc + w else acc) (w / 2)

/-- R85's reference algorithm: 39 bits, most significant first, the first worth 1/2. -/
def mantissaSerial (m : BitVec 39) : ℚ := mantissaLoop m 39 0 0 (1 / 2)

end Sys2Proof.Machine
end

