-- ==== Sys2Proof/Machine/Elapsed.lean ====
section
/-! DEFINITION. RETRIEVE's `time`, which the block does not store: what a consumer computes from ticks (10_state.md
R26; 41_stream.md R112), as an exact rational and as the binary64 that RETRIEVE's loop would hold. -/

namespace Sys2Proof.Machine

variable {w : Widths}

/-- `time = ticks * cfg_iv / 60`, in hours (R112; 90_conflicts.md C5). -/
def elapsedHours (iv : BitVec 8) (ticks : Nat) : ℚ := (ticks : ℚ) * (iv.toNat : ℚ) / 60

/-- The time of the row in progress (R26). -/
def Block.time (s : Block w) : ℚ := elapsedHours s.cfgIv s.rowsPrinted.toNat

/-- A non-negative number in units of 2^-55 rounded to 53 significant bits, to nearest, ties to even
(R112, 93_implementation_defined.md G2). -/
def roundTo53 (x : Nat) : Nat :=
  let k := x.log2 - 52
  let q := x / 2 ^ k
  let r := x % 2 ^ k
  if 2 ^ k < 2 * r || (2 * r == 2 ^ k && q % 2 == 1) then (q + 1) * 2 ^ k else q * 2 ^ k

/-- R112's increment `c` in units of 2^-55: the binary64 nearest to iv/60 hours. -/
def hoursPerTick (iv : BitVec 8) : Option Nat :=
  if iv = 10 then some (2 ^ 52 + 0x5555555555555)
  else if iv = 15 then some (2 ^ 53)
  else if iv = 30 then some (2 ^ 54)
  else none

/-- R112's recurrence `t_0 = 0.0, t_(j+1) = t_j + c` in binary64, in units of 2^-55. -/
def accumulatedTime (c : Nat) : Nat → Nat
  | 0 => 0
  | j + 1 => roundTo53 (accumulatedTime c j + c)

end Sys2Proof.Machine
end

