-- ==== Sys2Proof/Machine/Notation.lean ====
section
/-! DEFINITION. The textual notation of a run (30_encoding.md R69): its lines, and the stimuli they stand for under
a consumer that is always ready (log entry 15). -/

namespace Sys2Proof.Machine

/-- One line of a run. `CFG` is held for the whole run and is a field of `RunText`; comments mean nothing. -/
inductive Line where
  /-- `RESET`: one rising edge with rst = 1; START follows by itself (R69, R101). -/
  | reset
  /-- `BYTE 0xNN`: the environment transfers BYTE(b). -/
  | byte (b : Byte)
  /-- `EOS`: the environment transfers EOS. -/
  | eos
  /-- `REC 0x... * k`: the REC line k times; k = 1 for a plain REC line. -/
  | recTimes (p : PackedReal) (k : Nat)
deriving DecidableEq, Repr

/-- A run: the configuration and its lines. -/
structure RunText (w : Widths) where
  nodivars : BitVec w.nvW
  interval : BitVec 8
  lines : List Line
deriving DecidableEq, Repr

variable {w : Widths}

/-- The pins of an edge of this run that offers no token, with an always-ready consumer. -/
def RunText.idle (r : RunText w) : Pins w where
  rst := false
  inValid := false
  inEos := false
  inData := 0
  outReady := true
  cfgNodivars := r.nodivars
  cfgInterval := r.interval

/-- The pins of an edge that offers BYTE(b). -/
def RunText.offer (r : RunText w) (b : Byte) : Pins w := { r.idle with inValid := true, inData := b }

/-- The edges of a line: RESET and the START edge after it; one edge for a token; after EOS one more
edge, which pops the END token (R69, 95_test_vectors.md P1). -/
def RunText.edges (r : RunText w) : Line → List (Pins w)
  | .reset => [{ r.idle with rst := true }, r.idle]
  | .byte b => [r.offer b]
  | .eos => [{ r.idle with inValid := true, inEos := true }, r.idle]
  | .recTimes p k =>
    (List.replicate k ((List.range 6).map fun i => r.offer (literalByte p i))).flatten

/-- The stimuli of a run, in order. -/
def RunText.stimuli (r : RunText w) : List (Stimulus w) := (r.lines.flatMap r.edges).map .edge

end Sys2Proof.Machine
end

