-- ==== Sys2Proof/Safety.lean ====
section
/-! DEFINITION. What a run produces and which states it passes through, in the terms statements use: the functional
view of the input (20_memory.md R54), the function Out (41_stream.md R109, R110), the invariants (10_state.md
R32) and the end of a run (70_reset_and_hazards.md R157). -/

namespace Sys2Proof.Machine

variable {w : Widths}

/-! ### The functional view -/

/-- Record `k` of the source: `P_k = {S[6k], .., S[6k+5]}` (R54). -/
def recordAt (src : List Byte) (k : Nat) : PackedReal :=
  packBytes (src.getD (6 * k) 0) (src.getD (6 * k + 1) 0) (src.getD (6 * k + 2) 0)
    (src.getD (6 * k + 3) 0) (src.getD (6 * k + 4) 0) (src.getD (6 * k + 5) 0)

/-- `nrec = L div 6` (R54). -/
def recordCount (src : List Byte) : Nat := src.length / Config.recBytes

/-- `per = dpd + 2`, the rows of one reactor (R66, R110). -/
def rowsPerReactor (iv : BitVec 8) : Nat := Config.dayMinutes / iv.toNat + 2

/-- The reactor tag of row `r` (R110), wrapped to its width (R113). -/
def rowReactor (w : Widths) (iv : BitVec 8) (r : Nat) : BitVec w.reactorW :=
  BitVec.ofNat _ (1 + r / rowsPerReactor iv)

/-- The ticks tag of row `r` (R110). -/
def rowTicks (iv : BitVec 8) (r : Nat) : BitVec 8 := BitVec.ofNat _ (r % rowsPerReactor iv)

/-- The VALUE token of record `k` (R109). -/
def outValue (nv : BitVec w.nvW) (iv : BitVec 8) (src : List Byte) (k : Nat) : OutTok w where
  eos := false
  truncRecord := false
  truncRow := false
  sor := k % nv.toNat == 0
  eor := k % nv.toNat == nv.toNat - 1
  reactor := rowReactor w iv (k / nv.toNat)
  ticks := rowTicks iv (k / nv.toNat)
  col := BitVec.ofNat _ (k % nv.toNat)
  data := decode48 (recordAt src k)

/-- The VALUE tokens of all whole records, in order (R109). -/
def outValues (nv : BitVec w.nvW) (iv : BitVec 8) (src : List Byte) : List (OutTok w) :=
  (List.range (recordCount src)).map (outValue nv iv src)

/-- The END token (R109). -/
def outEnd (nv : BitVec w.nvW) (iv : BitVec 8) (src : List Byte) : OutTok w where
  eos := true
  truncRecord := src.length % Config.recBytes != 0
  truncRow := recordCount src % nv.toNat != 0
  sor := false
  eor := false
  reactor := rowReactor w iv (recordCount src / nv.toNat)
  ticks := rowTicks iv (recordCount src / nv.toNat)
  col := BitVec.ofNat _ (recordCount src % nv.toNat)
  data := 0

/-- `Out(nv, iv, S)`: what a run delivers (R109). -/
def out (nv : BitVec w.nvW) (iv : BitVec 8) (src : List Byte) : List (OutTok w) :=
  if legalNoDiVars nv && legalInterval iv then outValues nv iv src ++ [outEnd nv iv src] else []

/-- `RowComplete` run once for each of `r` completed rows (R105, R110). -/
def rowsCompleted : Nat → Block w → Host.Outcome (Block w) Fault Refusal
  | 0, s => .next s
  | r + 1, s => andThen (rowsCompleted r s) rowComplete

/-! ### Invariants -/

/-- The token waiting in the holding register, if any. -/
def Block.pending (s : Block w) : List (OutTok w) := if s.oValid then [s.oTok] else []

/-- Every element of R21 but `phase`, `cfg_nv`, `cfg_iv` and `err` has its reset value, and nothing has
been taken or delivered (R32(d), R32(e)). -/
structure Block.Untouched (s : Block w) : Prop where
  sr_eq : s.sr = (Block.reset w).sr
  bidx_eq : s.bidx = 0
  col_eq : s.col = 0
  rows_eq : s.rowsPrinted = 0
  reactor_eq : s.reactor = 1
  read_eq : s.numbersRead = 0
  valid_eq : s.oValid = false
  tok_eq : s.oTok = OutTok.zero w
  taken_eq : s.taken = []
  delivered_eq : s.delivered = []

/-- In RUN and DONE: the configuration is legal, and every counter is the function of the bytes taken
that R109 gives. -/
structure Block.Counts (s : Block w) : Prop where
  nv_legal : 1 ≤ s.cfgNv.toNat
  iv_legal : legalInterval s.cfgIv = true
  bidx_eq : s.bidx.toNat = s.taken.length % Config.recBytes
  sr_eq : ∀ i : Fin 5, i.val < s.bidx.toNat →
    s.sr[i] = s.taken.getD (Config.recBytes * recordCount s.taken + i.val) 0
  col_eq : s.col.toNat = recordCount s.taken % s.cfgNv.toNat
  rows_eq : s.rowsPrinted.toNat = recordCount s.taken / s.cfgNv.toNat % rowsPerReactor s.cfgIv
  reactor_eq : s.reactor = rowReactor w s.cfgIv (recordCount s.taken / s.cfgNv.toNat)
  read_eq : s.numbersRead = BitVec.ofNat _ (recordCount s.taken)

/-- The token formats that are not operations of R7. -/
def isOperation : Instr → Bool
  | .value _ _ _ _ _ _ => false
  | .endTok _ _ _ _ _ => false
  | .decode48Zero => true
  | .decode48Normal _ _ _ => true
  | .byteStore _ => true
  | .byteComplete _ => true
  | .eos => true
  | .recLine _ => true
  | .start _ _ => true
  | .pop => true
  | .reset => true

/-- A stimulus the spec knows: a rising edge, or a word of an operation of R7 (REC among them); no
output token is put into the block from outside. -/
def Stimulus.known : Stimulus w → Bool
  | .edge _ => true
  | .word x =>
    match decode w 0 x with
    | .ok i => isOperation i
    | .error _ => false

/-- What holds of every state of a run, at any widths: R32, phase by phase, and R109 as far as the run has
come. -/
structure RunInv (s : Block w) : Prop where
  /-- R32(d). -/
  init : s.phase = .init → s.Untouched ∧ s.cfgNv = 0 ∧ s.cfgIv = 0 ∧ s.err = 0
  /-- R32(e). -/
  fault : s.phase = .fault →
    s.Untouched ∧ s.err.extractLsb' 0 2 ≠ 0 ∧ s.err.getLsbD 2 = false
  /-- R32(b), R32(c), R109: what was delivered and what waits are the VALUE tokens of the whole
  records taken. -/
  run : s.phase = .run →
    s.Counts ∧ s.err = 0 ∧ s.delivered ++ s.pending = outValues s.cfgNv s.cfgIv s.taken
  /-- R32(b), R109: what was delivered and what waits are `Out(nv, iv, S)`, and err says whether the
  stream ended on a row boundary. -/
  done : s.phase = .done →
    s.Counts ∧
      s.err = BitVec.ofBool (s.bidx != 0 || s.col != 0) ++ 0#2 ∧
      s.delivered ++ s.pending = out s.cfgNv s.cfgIv s.taken
  /-- What is still to come are stimuli the spec knows. -/
  stim_known : ∀ x ∈ s.stim, x.known = true

/-! ### The end of a run (R157) -/

/-- The run is over and good: the END token has been delivered. -/
def Block.overAndGood (s : Block w) : Prop := s.phase = .done ∧ s.oValid = false

/-- The run is over and failed. -/
def Block.overAndFailed (s : Block w) : Prop := s.phase = .fault

/-- Every element of R21 is the same in the two states. -/
structure SameBlock (s t : Block w) : Prop where
  phase_eq : t.phase = s.phase
  nv_eq : t.cfgNv = s.cfgNv
  iv_eq : t.cfgIv = s.cfgIv
  sr_eq : t.sr = s.sr
  bidx_eq : t.bidx = s.bidx
  col_eq : t.col = s.col
  rows_eq : t.rowsPrinted = s.rowsPrinted
  reactor_eq : t.reactor = s.reactor
  read_eq : t.numbersRead = s.numbersRead
  err_eq : t.err = s.err
  valid_eq : t.oValid = s.oValid
  tok_eq : t.oTok = s.oTok

end Sys2Proof.Machine
end

