-- ==== Sys2Proof/Certificates/Slice0/Obligations.lean ====
section
/-! DEFINITION. The statements for the provers. Each docstring names the rule of spec/ it formalises, or says that it is
the model's choice and names the log entry. -/

open Sys2Proof Sys2Proof.Machine

/-! ### Encoding -/

/-- Words written out from the bit patterns of 30_encoding.md R60 and R63 and, for the three control conditions, from
the vectors of the opcode table's "condition" column, laid out as log entry 9 says. -/
def Obligations.WordsDecodeAsWritten : Prop :=
  decodeTableWord 48 0x8d257ce29d07 = some (.decode48Normal 0x8d false 0x079de27c25) ∧
  decodeTableWord 48 0 = some .decode48Zero ∧
  decodeTableWord 16 0b010001101 = some (.byteStore 0x8d) ∧
  decode Widths.default 5 ⟨.inputToken, 0b000000111⟩ = .ok (.byteComplete 0x07) ∧
  decodeTableWord 16 0b111111111 = some .eos ∧
  decodeTableWord 8 0b000 = some (.start 0 0) ∧
  decodeTableWord 8 0b011 = some .pop ∧
  decodeTableWord 8 0b1 = some .reset

/-- Decoding an encoded well-formed operation gives it back, for every row of the table and every operand
(R60, R61, R63, R64, R69), at all widths of the open parameters (R6; log entry 1) and at every byte index at which
the word is that row (R102, R103; log entry 7). The words of START, RESET and POP are the model's layout (log entry
9), and so is in_data of EOS (log entry 14); an operand fits its width (log entry 17). -/
def Obligations.DecodeInvertsEncode : Prop :=
  ∀ (w : Widths) (i : Instr) (bidx : BitVec 3), i.wellFormed w = true → i.rowAt bidx = true →
    decode w bidx (encode w i) = .ok i

/-- Every one of the 2^48 patterns is an operation, and no bit of it is dropped: encoding what was decoded
gives the pattern back (R60, R62). -/
def Obligations.PackedRealWordsHaveOneMeaning : Prop :=
  ∀ (w : Widths) (bidx : BitVec 3) (p : PackedReal),
    ∃ i, decode w bidx ⟨.packedReal, p.toNat⟩ = .ok i ∧
    i.wellFormed w = true ∧ encode w i = ⟨.packedReal, p.toNat⟩ ∧
    (i = .decode48Zero ↔ p = 0)

/-- All 512 input token patterns are legal; bit 8 set is EOS whatever in_data is, else the token is BYTE(in_data)
(R63). Which of the two rows a BYTE token is follows R102 and R103; that the indices 6 and 7, which no run reaches,
read as BYTE.COMPLETE is the model's reading (log entry 7). -/
def Obligations.EveryTokenPatternIsLegal : Prop :=
  ∀ (w : Widths) (bidx : BitVec 3) (inEos : Bool) (b : Byte),
    decode w bidx ⟨.inputToken, (BitVec.ofBool inEos ++ b).toNat⟩ =
      .ok (if inEos then .eos else if bidx < 5 then .byteStore b else .byteComplete b)

/-- R61: the field assembly. `E`, `s`, the place in `P` of every mantissa bit, its weight, and the worked
example. -/
def Obligations.FieldAssembly : Prop :=
  (∀ p : PackedReal,
    (∀ k, k < 8 → (exponentField p).getLsbD k = p.getLsbD (40 + k)) ∧
    signField p = p.getLsbD 7 ∧
    (∀ i, i < 39 → (mantissaField p).getLsbD (38 - i) =
      p.getLsbD (if i < 7 then 6 - i else if i < 15 then 15 - (i - 7)
        else if i < 23 then 23 - (i - 15) else if i < 31 then 31 - (i - 23) else 39 - (i - 31))) ∧
    mantissaValue (mantissaField p) =
      ((List.range 39).map fun i =>
        if (mantissaField p).getLsbD (38 - i) then (1 : ℚ) / 2 ^ (i + 1) else 0).sum) ∧
  exponentField 0x8d257ce29d07 = 0x8d ∧ signField 0x8d257ce29d07 = false ∧
  mantissaField 0x8d257ce29d07 = 0x079de27c25

/-! ### DECODE48 -/

/-- DECODE48.ZERO completes in every state: `+0.0` is driven and nothing else changes (R20, R81; the list
of results is the model's, log entry 5). -/
def Obligations.DecodeZeroDrivesPositiveZero : Prop :=
  ∀ (w : Widths) (s : Block w),
    exec .decode48Zero ⟨w, s⟩ = .next ⟨w, { s with results := s.results ++ [0] }⟩

/-- DECODE48.NORMAL completes in every state, for every pattern of its class: `{s, E + 894, M, 13'b0}` is
driven and nothing else changes (R20, R80, R88; the list of results is the model's, log entry 5). -/
def Obligations.DecodeNormalDrivesPackedFields : Prop :=
  ∀ (e : BitVec 8) (sgn : Bool) (m : BitVec 39) (w : Widths) (s : Block w),
    (Instr.decode48Normal e sgn m).wellFormed w = true →
    exec (.decode48Normal e sgn m) ⟨w, s⟩ =
      .next ⟨w, { s with results :=
        s.results ++ [BitVec.ofBool sgn ++ (e.setWidth 11 + 894#11) ++ m ++ 0#13] }⟩

/-- R81: the zero-check is on all 48 bits and has priority; `-0.0` is never produced; the two corner
patterns take the normal path. -/
def Obligations.ZeroCheckHasPriority : Prop :=
  (∀ p : PackedReal, (zeroCheck p = true ↔ p = 0) ∧ (zeroCheck p = true → decode48 p = 0) ∧
    decode48 p ≠ 0x8000000000000000) ∧
  zeroCheck 0x000000000080 = false ∧ decode48Value 0x000000000080 = -(2 : ℚ) ^ (-129 : Int) ∧
  zeroCheck 0x000100000000 = false ∧
  decode48Value 0x000100000000 = (1 + 1 / 2 ^ 39) * (2 : ℚ) ^ (-129 : Int)

/-- R83: the true exponent is `E - 129` exactly and lies in [-129, 126]; the hardware exponent is `E + 894`
without carry, lies in 894..1149, is `e + 1023`, and is the exponent of every normal result. -/
def Obligations.BiasOffsetIsExact : Prop :=
  (∀ e : BitVec 8,
    trueExponent e = (e.toNat : Int) - 129 ∧ -129 ≤ trueExponent e ∧ trueExponent e ≤ 126 ∧
    (biasOffset e).toNat = e.toNat + 894 ∧ 894 ≤ (biasOffset e).toNat ∧
    (biasOffset e).toNat ≤ 1149 ∧ ((biasOffset e).toNat : Int) = trueExponent e + 1023 ∧
    biasOffset e ≠ 0 ∧ biasOffset e ≠ 2047) ∧
  (∀ p : PackedReal, p ≠ 0 → (decode48 p).extractLsb' 52 11 = biasOffset (exponentField p)) ∧
  biasOffset 0 = 894 ∧ biasOffset 129 = 1023 ∧ biasOffset 255 = 1149 ∧ biasOffset 141 = 0x40b

/-- R85: the source's bit-serial loop computes `M / 2^39` exactly. -/
def Obligations.SerialMantissaIsExact : Prop :=
  ∀ m : BitVec 39, mantissaSerial m = (m.toNat : ℚ) / 2 ^ 39

/-- R87: the sign is bit 7 of byte 5, it is bit 63 of the result, it negates the magnitude, and the sign-only
pattern is not a negative zero. -/
def Obligations.SignNegatesMagnitude : Prop :=
  (∀ p : PackedReal,
    (decode48 p).getLsbD 63 = p.getLsbD 7 ∧
    (p ≠ 0 → decode48Value p = if p.getLsbD 7 then -magnitudeValue p else magnitudeValue p) ∧
    (p.getLsbD 7 = true → p ≠ 0)) ∧
  decode48 0x000000000080 = 0xb7e0000000000000 ∧
  decode48Value 0x000000000080 = -(2 : ℚ) ^ (-129 : Int) ∧
  decode48 0x810000000080 = 0xbff0000000000000 ∧ decode48Value 0x810000000080 = -1

/-- R80, R88: the two forms of DECODE48, bit by bit and as a value, and that the bits driven are the binary64 whose
value is exactly `DECODE48_value(P)`, for every pattern; nothing is rounded. -/
def Obligations.ResultBitsHaveTheExactValue : Prop :=
  (∀ p : PackedReal, decode48 p =
    if p = 0 then 0
    else BitVec.ofBool (p.getLsbD 7) ++ ((p.extractLsb' 40 8).setWidth 11 + 894#11) ++
      (p.extractLsb' 0 7 ++ p.extractLsb' 8 8 ++ p.extractLsb' 16 8 ++ p.extractLsb' 24 8 ++
        p.extractLsb' 32 8) ++ 0#13) ∧
  (∀ p : PackedReal, p ≠ 0 → decode48Value p =
    (if p.getLsbD 7 then -1 else 1) *
      (1 + ((p.extractLsb' 0 7 ++ p.extractLsb' 8 8 ++ p.extractLsb' 16 8 ++ p.extractLsb' 24 8 ++
        p.extractLsb' 32 8).toNat : ℚ) / 2 ^ 39) *
      (2 : ℚ) ^ (((p.extractLsb' 40 8).toNat : Int) - 129)) ∧
  decode48Value 0 = 0 ∧
  (∀ p : PackedReal, binary64Value (decode48 p) = some (decode48Value p)) ∧
  decode48 0x8d257ce29d07 = 0x40b0f3bc4f84a000

/-- R91: every result is `+0.0` or a normal binary64 with biased exponent in 894..1149 and the low 13
fraction bits zero; its magnitude is 0 or in [2^-129, (2 - 2^-39) 2^126]; the four extremes. -/
def Obligations.ResultRange : Prop :=
  (∀ p : PackedReal,
    (decode48 p = 0 ∨
      (894 ≤ ((decode48 p).extractLsb' 52 11).toNat ∧ ((decode48 p).extractLsb' 52 11).toNat ≤ 1149 ∧
        (decode48 p).extractLsb' 0 13 = 0)) ∧
    (|decode48Value p| = 0 ∨
      ((2 : ℚ) ^ (-129 : Int) ≤ |decode48Value p| ∧
        |decode48Value p| ≤ (2 - 1 / 2 ^ 39) * (2 : ℚ) ^ (126 : Int))) ∧
    decode48 p ≠ 0x8000000000000000 ∧
    (decode48Value p ≤ decode48Value 0xffffffffff7f) ∧
    (decode48Value 0xffffffffffff ≤ decode48Value p) ∧
    (0 < decode48Value p → decode48Value 0x000100000000 ≤ decode48Value p) ∧
    (decode48Value p < 0 → decode48Value p ≤ decode48Value 0x000000000080)) ∧
  decode48 0xffffffffff7f = 0x47dfffffffffe000 ∧ decode48 0xffffffffffff = 0xc7dfffffffffe000 ∧
  decode48 0x000100000000 = 0x37e0000000002000 ∧ decode48 0x000000000080 = 0xb7e0000000000000 ∧
  decode48Value 0x000100000000 = (1 + 1 / 2 ^ 39) * (2 : ℚ) ^ (-129 : Int) ∧
  decode48Value 0x000000000080 = -(2 : ℚ) ^ (-129 : Int)

/-- R92: flipping bit 7 of byte 5 flips the sign bit of the result and negates its value, except for the two
patterns named, for which it does not. -/
def Obligations.SignFlipNegates : Prop :=
  (∀ p : PackedReal, p ≠ 0x000000000000 → p ≠ 0x000000000080 →
    decode48 (p ^^^ 0x000000000080#48) = decode48 p ^^^ 0x8000000000000000#64 ∧
    decode48Value (p ^^^ 0x000000000080#48) = -decode48Value p) ∧
  decode48 0x000000000000 = 0 ∧ decode48Value 0x000000000080 = -(2 : ℚ) ^ (-129 : Int)

/-- R93: incrementing byte 0 doubles the value, with exactly the exclusions the rule states. -/
def Obligations.ExponentIncrementDoubles : Prop :=
  (∀ p : PackedReal, p.extractLsb' 40 8 ≠ 255 →
    (p.extractLsb' 0 40 ≠ 0 ∨ p.extractLsb' 40 8 ≠ 0) →
    decode48Value (p + 0x010000000000#48) = 2 * decode48Value p) ∧
  decode48Value 0 = 0 ∧ decode48Value 0x010000000000 = (2 : ℚ) ^ (-128 : Int)

/-- R94: two different patterns give two different results; the normal results are exactly the words
`{s, X, M, 13'b0}` with X in 894..1149 other than `+2^-129`; `+0.0` comes from the all-zero pattern only. -/
def Obligations.DecodeIsInjective : Prop :=
  (∀ p q : PackedReal, decode48 p = decode48 q → p = q) ∧
  (∀ d : Binary64, (∃ p : PackedReal, p ≠ 0 ∧ decode48 p = d) ↔
    ∃ (sgn : Bool) (x : BitVec 11) (m : BitVec 39), 894#11 ≤ x ∧ x ≤ 1149#11 ∧
      d = BitVec.ofBool sgn ++ x ++ m ++ 0#13 ∧ d ≠ 0x37e0000000000000) ∧
  (∀ p : PackedReal, decode48 p = 0 ↔ p = 0)

/-! ### Reset and start -/

/-- R33: the reset value of each of the twelve elements, at all widths. -/
def Obligations.ResetStateValues : Prop :=
  ∀ w : Widths,
    (Block.reset w).phase = .init ∧ (Block.reset w).cfgNv = 0 ∧ (Block.reset w).cfgIv = 0 ∧
    (∀ i : Fin 5, (Block.reset w).sr[i] = 0x00#8) ∧ (Block.reset w).bidx = 0 ∧
    (Block.reset w).col = 0 ∧ (Block.reset w).rowsPrinted = 0 ∧ (Block.reset w).reactor = 1 ∧
    (Block.reset w).numbersRead = 0 ∧ (Block.reset w).err = 0b000#3 ∧
    (Block.reset w).oValid = false ∧
    (Block.reset w).oTok = ⟨false, false, false, false, false, 0, 0, 0, 0⟩

/-- R150: RESET gives every element its reset value from any state, and at an edge with rst = 1 it is all
that happens, whatever else is on the ports. -/
def Obligations.ResetHasPriority : Prop :=
  ∀ (w : Widths) (s : Block w),
    (∃ t : Block w, exec .reset ⟨w, s⟩ = .next ⟨w, t⟩ ∧ SameBlock (Block.reset w) t) ∧
    (∀ p : Pins w, p.rst = true → clockEdge p s = exec .reset ⟨w, s⟩) ∧
    (Block.reset w).phase = .init ∧ (Block.reset w).cfgNv = 0 ∧ (Block.reset w).cfgIv = 0 ∧
    (Block.reset w).sr = Vector.replicate 5 0 ∧ (Block.reset w).bidx = 0 ∧
    (Block.reset w).col = 0 ∧ (Block.reset w).rowsPrinted = 0 ∧ (Block.reset w).reactor = 1 ∧
    (Block.reset w).numbersRead = 0 ∧ (Block.reset w).err = 0 ∧ (Block.reset w).oValid = false ∧
    (Block.reset w).oTok = OutTok.zero w

/-- What RESET does with the model's own fields: the two records begin anew, the stimuli, their count and the results
of a stand-alone decoder are kept (the model's choice, log entries 2 to 5). -/
def Obligations.ResetKeepsOwnFields : Prop :=
  ∀ (w : Widths) (s : Block w), exec .reset ⟨w, s⟩ = .next ⟨w, { Block.reset w with
    stim := s.stim, freeEdges := s.freeEdges, results := s.results, taken := [], delivered := [] }⟩

/-- START latches the two ports, writes err[0] and err[1], and goes to FAULT or RUN; nothing else changes; the first
edge with rst = 0 in INIT is a START of the port values (R101). Asked for outside INIT, START is not enabled and changes
nothing (log entry 6, the model's reading of R100); a number wider than the port loses its high bits (log entry 17). -/
def Obligations.StartLatchesAndChecks : Prop :=
  ∀ w : Widths,
  (∀ (nodivars : Nat) (iv : BitVec 8) (s : Block w), s.phase = .init →
    let nv := BitVec.ofNat w.nvW nodivars
    exec (.start nodivars iv) ⟨w, s⟩ = .next ⟨w, { s with
      cfgNv := nv, cfgIv := iv,
      err := BitVec.ofBool (s.err.getLsbD 2) ++ BitVec.ofBool (iv != 10 && iv != 15 && iv != 30) ++
        BitVec.ofBool (nv == 0),
      phase := if nv == 0 || (iv != 10 && iv != 15 && iv != 30) then .fault else .run }⟩) ∧
  (∀ (nodivars : Nat) (iv : BitVec 8) (s : Block w), s.phase ≠ .init →
    exec (.start nodivars iv) ⟨w, s⟩ = .next ⟨w, s⟩) ∧
  (∀ (p : Pins w) (s : Block w), p.rst = false → s.phase = .init →
    clockEdge p s = exec (.start p.cfgNodivars.toNat p.cfgInterval) ⟨w, s⟩)

/-- R131, R132, R136, R137: from a state of a run in INIT, the two configuration conditions are raised each by
its own cause, neither hides the other, and a refused configuration takes no token and delivers none: every
later edge without rst leaves the whole state as it is. -/
def Obligations.RefusedConfigurationIsTerminal : Prop :=
  ∀ w : Widths,
  (∀ (nv : BitVec w.nvW) (iv : BitVec 8) (s : Block w), RunInv s → s.phase = .init →
    ∃ t : Block w, exec (.start nv.toNat iv) ⟨w, s⟩ = .next ⟨w, t⟩ ∧
      (t.err.getLsbD 0 = true ↔ nv.toNat = 0) ∧
      (t.err.getLsbD 1 = true ↔ iv.toNat ∉ [10, 15, 30]) ∧
      t.err.getLsbD 2 = false ∧
      (t.phase = .fault ↔ nv.toNat = 0 ∨ iv.toNat ∉ [10, 15, 30])) ∧
  (∀ (p : Pins w) (s : Block w), RunInv s → s.phase = .fault → p.rst = false →
    clockEdge p s = .next ⟨w, s⟩ ∧ s.inReady p.outReady = false ∧ s.outValid = false)

/-! ### The input side -/

/-- R102: while enabled and with bidx < 5, BYTE(b) stores b in sr[bidx] and increments bidx; nothing else of
the block changes. (`taken` is the model's record of the
transfer, log entry 4.) -/
def Obligations.ByteStoreFillsAssemblyRegister : Prop :=
  ∀ (b : Byte) (w : Widths) (s : Block w), s.phase = .run → s.oValid = false → s.bidx.toNat < 5 →
    ∃ t : Block w, exec (.byteStore b) ⟨w, s⟩ = .next ⟨w, t⟩ ∧
      t = { s with sr := t.sr, bidx := t.bidx, taken := s.taken ++ [b] } ∧
      t.bidx.toNat = s.bidx.toNat + 1 ∧
      (∀ i : Fin 5, t.sr[i] = if i.val = s.bidx.toNat then b else s.sr[i])

/-- R103, first branch: a record completed away from the last column. (`taken`: log entry 4.) -/
def Obligations.ByteCompletePushesValue : Prop :=
  ∀ (b : Byte) (w : Widths) (s : Block w), s.phase = .run → s.oValid = false → s.bidx = 5 →
    s.col ≠ s.cfgNv - 1 →
    exec (.byteComplete b) ⟨w, s⟩ = .next ⟨w, { s with
      oTok := {
        eos := false, truncRecord := false, truncRow := false, sor := s.col == 0, eor := false,
        reactor := s.reactor, ticks := s.rowsPrinted, col := s.col,
        data := decode48 (s.sr[0] ++ s.sr[1] ++ s.sr[2] ++ s.sr[3] ++ s.sr[4] ++ b) },
      oValid := true, bidx := 0, numbersRead := s.numbersRead + 1, col := s.col + 1,
      taken := s.taken ++ [b] }⟩

/-- R103 and R105, last column: the token is tagged from the state before, the column returns to 0, and the row
is counted, or the reactor rolls over exactly when rowsPrinted > dpd. (`taken`: log entry 4.) -/
def Obligations.ByteCompleteClosesRow : Prop :=
  ∀ (b : Byte) (w : Widths) (s : Block w), s.phase = .run → s.oValid = false → s.bidx = 5 →
    s.col = s.cfgNv - 1 → (s.cfgIv = 10 ∨ s.cfgIv = 15 ∨ s.cfgIv = 30) →
    exec (.byteComplete b) ⟨w, s⟩ = .next ⟨w, { s with
      oTok := {
        eos := false, truncRecord := false, truncRow := false, sor := s.col == 0, eor := true,
        reactor := s.reactor, ticks := s.rowsPrinted, col := s.col,
        data := decode48 (s.sr[0] ++ s.sr[1] ++ s.sr[2] ++ s.sr[3] ++ s.sr[4] ++ b) },
      oValid := true, bidx := 0, numbersRead := s.numbersRead + 1, col := 0,
      rowsPrinted := if 1440 / s.cfgIv.toNat < s.rowsPrinted.toNat then 0 else s.rowsPrinted + 1,
      reactor := if 1440 / s.cfgIv.toNat < s.rowsPrinted.toNat then s.reactor + 1 else s.reactor,
      taken := s.taken ++ [b] }⟩

/-- R110: the tags of row r are `reactor = 1 + (r div per)` (wrapped, R113) and `ticks = r mod per` with
`per = dpd + 2`, which is 146, 98 or 50; with interval 10 row 145 is still reactor 1 and row 146 is reactor 2,
ticks 0; the elapsed time of a row is ticks * iv / 60 hours. -/
def Obligations.RowTagsClosedForm : Prop :=
  (∀ (r : Nat) (w : Widths) (s : Block w),
    legalInterval s.cfgIv = true → s.rowsPrinted = 0 → s.reactor = 1 →
    rowsCompleted r s = .next { s with
      rowsPrinted := BitVec.ofNat 8 (r % (1440 / s.cfgIv.toNat + 2)),
      reactor := BitVec.ofNat _ (1 + r / (1440 / s.cfgIv.toNat + 2)) }) ∧
  rowsPerReactor 10 = 146 ∧ rowsPerReactor 15 = 98 ∧ rowsPerReactor 30 = 50 ∧
  (∀ w r, r ≤ 145 → rowReactor w 10 r = 1 ∧ (rowTicks 10 r).toNat = r) ∧
  (∀ w, rowReactor w 10 146 = 2) ∧ rowTicks 10 146 = 0 ∧
  (∀ (w : Widths) (s : Block w), s.time = (s.rowsPrinted.toNat : ℚ) * s.cfgIv.toNat / 60)

/-- R106: while enabled, EOS pushes the END token with the two truncation marks, writes err[2], and goes to
DONE; nothing else changes. -/
def Obligations.EosPushesEnd : Prop :=
  ∀ (w : Widths) (s : Block w), s.phase = .run → s.oValid = false →
    exec .eos ⟨w, s⟩ = .next ⟨w, { s with
      oTok := {
        eos := true, truncRecord := s.bidx != 0, truncRow := s.col != 0, sor := false, eor := false,
        reactor := s.reactor, ticks := s.rowsPrinted, col := s.col, data := 0 },
      oValid := true,
      err := BitVec.ofBool (s.bidx != 0 || s.col != 0) ++ s.err.extractLsb' 0 2,
      phase := .done }⟩

/-- R133: in a state of a run, EOS raises TruncatedRecord exactly when the number of bytes taken is not a
multiple of 6 * cfg_nv; the END token says which of a record and a row is unfinished. The bytes taken are the
model's record of the transfers (log entry 4). -/
def Obligations.TruncatedRecordExactlyWhenShort : Prop :=
  ∀ (w : Widths) (s : Block w), RunInv s → s.phase = .run → s.oValid = false →
    ∃ t : Block w, exec .eos ⟨w, s⟩ = .next ⟨w, t⟩ ∧
      (t.err.getLsbD 2 = true ↔ s.taken.length % (6 * s.cfgNv.toNat) ≠ 0) ∧
      (t.oTok.truncRecord = true ↔ s.taken.length % 6 ≠ 0) ∧
      (t.oTok.truncRow = true ↔ s.taken.length / 6 % s.cfgNv.toNat ≠ 0) ∧
      t.oTok.col.toNat = s.taken.length / 6 % s.cfgNv.toNat ∧ t.phase = .done

/-- R69: REC started at bidx = 0 with the holding register empty completes, and is five BYTE.STORE and one
BYTE.COMPLETE, the bytes of the literal left to right; the token pushed carries its DECODE48. (REC as one
operation: log entry 10; `taken`: log entry 4.) -/
def Obligations.RecIsSixBytes : Prop :=
  ∀ (p : PackedReal) (w : Widths) (s : Block w),
    s.phase = .run → s.oValid = false → s.bidx = 0 → legalInterval s.cfgIv = true →
    ∃ t : Block w, exec (.recLine p) ⟨w, s⟩ = .next ⟨w, t⟩ ∧
      runOps [.byteStore (p.extractLsb' 40 8), .byteStore (p.extractLsb' 32 8),
        .byteStore (p.extractLsb' 24 8), .byteStore (p.extractLsb' 16 8),
        .byteStore (p.extractLsb' 8 8), .byteComplete (p.extractLsb' 0 8)] ⟨w, s⟩ = .next ⟨w, t⟩ ∧
      t.oTok.data = decode48 p ∧
      t.sr = #v[p.extractLsb' 40 8, p.extractLsb' 32 8, p.extractLsb' 24 8, p.extractLsb' 16 8,
        p.extractLsb' 8 8] ∧
      t = { s with
        sr := t.sr, bidx := 0, col := t.col, rowsPrinted := t.rowsPrinted, reactor := t.reactor,
        numbersRead := s.numbersRead + 1, oValid := true, oTok := t.oTok,
        taken := s.taken ++ [p.extractLsb' 40 8, p.extractLsb' 32 8, p.extractLsb' 24 8,
          p.extractLsb' 16 8, p.extractLsb' 8 8, p.extractLsb' 0 8] }

/-- REC started elsewhere (log entry 10, the model's reading of R69 with R41 and R100): in every state of a run
it completes; outside RUN nothing changes; in RUN the six bytes are taken, in order, and nothing is lost: what
was delivered or waits only grows. -/
def Obligations.RecTakesSixBytesAnywhere : Prop :=
  ∀ (p : PackedReal) (w : Widths) (s : Block w), RunInv s →
    (s.phase ≠ .run → exec (.recLine p) ⟨w, s⟩ = .next ⟨w, s⟩) ∧
    (s.phase = .run → ∃ t : Block w, exec (.recLine p) ⟨w, s⟩ = .next ⟨w, t⟩ ∧
      t.taken = s.taken ++ (List.range 6).map (literalByte p) ∧
      t.bidx = s.bidx ∧ t.numbersRead = s.numbersRead + 1 ∧
      ∃ k, t.delivered ++ t.pending = s.delivered ++ s.pending ++ [k])

/-- R24, R102, R103: a BYTE row at a byte index its rule does not cover stops by name (log entry 7), and so does
the end of a row with an interval for which no dpd is defined (R23, R113; log entry 8). The two rules' own
indices do not stop. -/
def Obligations.ByteRowsStopOutsideTheirRules : Prop :=
  ∀ (b : Byte) (w : Widths) (s : Block w), s.phase = .run → s.oValid = false →
    (5 ≤ s.bidx.toNat → exec (.byteStore b) ⟨w, s⟩ = .fault .byteRowMismatch) ∧
    (s.bidx ≠ 5 → exec (.byteComplete b) ⟨w, s⟩ = .fault .byteRowMismatch) ∧
    (s.bidx = 5 → s.col = s.cfgNv - 1 → s.cfgIv.toNat ∉ [10, 15, 30] →
      exec (.byteComplete b) ⟨w, s⟩ = .fault .intervalNotLegal)

/-- R41, R100, R108: what is not enabled does not happen: the operation completes and changes nothing. (Asking for
an operation that is not enabled: log entry 6; the two token rows: log entry 11.) -/
def Obligations.NotEnabledChangesNothing : Prop :=
  ∀ (w : Widths) (s : Block w),
    ((s.phase ≠ .run ∨ s.oValid = true) →
      (∀ b, exec (.byteStore b) ⟨w, s⟩ = .next ⟨w, s⟩) ∧
      (∀ b, exec (.byteComplete b) ⟨w, s⟩ = .next ⟨w, s⟩) ∧
      exec .eos ⟨w, s⟩ = .next ⟨w, s⟩ ∧
      (∀ a c r k l d, exec (.value a c r k l d) ⟨w, s⟩ = .next ⟨w, s⟩) ∧
      (∀ a c r k l, exec (.endTok a c r k l) ⟨w, s⟩ = .next ⟨w, s⟩)) ∧
    (s.oValid = false → exec .pop ⟨w, s⟩ = .next ⟨w, s⟩)

/-! ### The output side -/

/-- R107: POP delivers o_tok and empties the holding register; o_tok keeps its bits; nothing else changes.
(`delivered` is the model's record of the transfer, log entry 4.) -/
def Obligations.PopDeliversHeldToken : Prop :=
  ∀ (w : Widths) (s : Block w), s.oValid = true →
    exec .pop ⟨w, s⟩ = .next ⟨w, { s with oValid := false, delivered := s.delivered ++ [s.oTok] }⟩

/-- The model's meaning of the two token rows (log entry 11, from R9, R30 and R64): the push of exactly that
token into an empty holding register in RUN; nothing else changes. The tags are as wide as the block's (log entry
17). -/
def Obligations.TokenRowsPushTheirToken : Prop :=
  ∀ (w : Widths) (s : Block w), s.phase = .run → s.oValid = false →
    (∀ (sor eor : Bool) (reactor : Nat) (ticks : BitVec 8) (col : Nat) (data : Binary64),
      exec (.value sor eor reactor ticks col data) ⟨w, s⟩ = .next ⟨w, { s with
        oTok := {
          eos := false, truncRecord := false, truncRow := false, sor := sor, eor := eor,
          reactor := BitVec.ofNat _ reactor, ticks := ticks, col := BitVec.ofNat _ col, data := data },
        oValid := true }⟩) ∧
    (∀ (truncRecord truncRow : Bool) (reactor : Nat) (ticks : BitVec 8) (col : Nat),
      exec (.endTok truncRecord truncRow reactor ticks col) ⟨w, s⟩ = .next ⟨w, { s with
        oTok := {
          eos := true, truncRecord := truncRecord, truncRow := truncRow, sor := false, eor := false,
          reactor := BitVec.ofNat _ reactor, ticks := ticks, col := BitVec.ofNat _ col, data := 0 },
        oValid := true }⟩)

/-! ### The clock edge -/

/-- What one edge performs, and in which order (R100). A BYTE token at the byte indices 6 and 7, which no run reaches,
is read as BYTE.COMPLETE (log entry 7, the model's reading). -/
def Obligations.EdgePerformsItsSteps : Prop :=
  ∀ (w : Widths) (p : Pins w) (s : Block w),
    let pop := s.oValid && p.outReady
    let take := p.inValid && s.phase == .run && (!s.oValid || p.outReady)
    let token := if p.inEos then Instr.eos
      else if s.bidx.toNat < 5 then .byteStore p.inData else .byteComplete p.inData
    (p.rst = true → clockEdge p s = exec .reset ⟨w, s⟩) ∧
    (p.rst = false → s.phase = .init →
      clockEdge p s = exec (.start p.cfgNodivars.toNat p.cfgInterval) ⟨w, s⟩) ∧
    (p.rst = false → s.phase ≠ .init →
      (pop = true → take = true → clockEdge p s = andThen (exec .pop ⟨w, s⟩) (exec token)) ∧
      (pop = true → take = false → clockEdge p s = exec .pop ⟨w, s⟩) ∧
      (pop = false → take = true → clockEdge p s = exec token ⟨w, s⟩) ∧
      (pop = false → take = false → clockEdge p s = .next ⟨w, s⟩))

/-- A step whose next stimulus is an edge is that edge of R100; a step whose next stimulus is a word runs the
operation the word decodes to, and nothing is added around it but that the stimulus is used up; a word that
decodes to none is refused by name (log entries 2, 6 and 9). -/
def Obligations.StepRunsNextStimulus : Prop :=
  ∀ (w : Widths) (s : Block w) (rest : List (Stimulus w)),
    (∀ p, s.stim = .edge p :: rest → step ⟨w, s⟩ = clockEdge p { s with stim := rest }) ∧
    (∀ x i, s.stim = .word x :: rest → decode w s.bidx x = .ok i →
      step ⟨w, s⟩ = exec i ⟨w, { s with stim := rest }⟩) ∧
    (∀ x e, s.stim = .word x :: rest → decode w s.bidx x = .error e →
      step ⟨w, s⟩ = .refused (.notAWord e))

/-- R41, R47, R48: at an edge without reset, outside INIT, a byte is taken exactly when an input transfer of a
BYTE token happens, and the held token is delivered exactly when an output transfer happens; each once. (`taken`
and `delivered` are the model's record of the transfers, log entry 4.) -/
def Obligations.TransfersAreExact : Prop :=
  ∀ (w : Widths) (p : Pins w) (s t : Block w), p.rst = false → s.phase ≠ .init →
    clockEdge p s = .next ⟨w, t⟩ →
    t.taken = s.taken ++
      (if p.inValid && !p.inEos && s.inReady p.outReady then [p.inData] else []) ∧
    t.delivered = s.delivered ++ (if s.outValid && p.outReady then [s.oTok] else [])

/-- R108: an edge with rst = 0, phase not INIT, no pop and no take changes no state element; in DONE and FAULT
in_ready is 0. -/
def Obligations.IdleEdgeChangesNothing : Prop :=
  ∀ w : Widths,
  (∀ (p : Pins w) (s : Block w), p.rst = false → s.phase ≠ .init →
    (s.oValid = false ∨ p.outReady = false) →
    (p.inValid = false ∨ s.phase ≠ .run ∨ (s.oValid = true ∧ p.outReady = false)) →
    clockEdge p s = .next ⟨w, s⟩) ∧
  (∀ (s : Block w) (outReady : Bool), s.phase = .done ∨ s.phase = .fault →
    s.inReady outReady = false)

/-- R158: in a state of a run the block never blocks itself: in RUN an edge that offers a token to a block whose
consumer is ready takes it; in RUN and DONE an edge with a ready consumer delivers a waiting token. (`taken` and
`delivered`: log entry 4.) -/
def Obligations.BlockNeverBlocksItself : Prop :=
  ∀ (w : Widths) (p : Pins w) (s : Block w), RunInv s → p.rst = false → p.outReady = true →
    (s.phase = .run → p.inValid = true → ∃ t : Block w, clockEdge p s = .next ⟨w, t⟩ ∧
      (p.inEos = true → t.phase = .done) ∧ (p.inEos = false → t.taken = s.taken ++ [p.inData])) ∧
    (s.phase = .run ∨ s.phase = .done → s.oValid = true →
      ∃ t : Block w, clockEdge p s = .next ⟨w, t⟩ ∧ t.delivered = s.delivered ++ [s.oTok])

/-! ### What operations can change -/

/-- R22: the codes of the phases and every transition: RESET to INIT from any phase, START from INIT to RUN or
FAULT, EOS from RUN to DONE, and nothing else changes phase; input is accepted in RUN only, and a FAULT of a run
offers no output. -/
def Obligations.PhaseTransitions : Prop :=
  (Phase.init.code = 0 ∧ Phase.run.code = 1 ∧ Phase.done.code = 2 ∧ Phase.fault.code = 3) ∧
  ∀ w : Widths,
  (∀ (i : Instr) (s t : Block w), exec i ⟨w, s⟩ = .next ⟨w, t⟩ →
    t.phase = s.phase ∨ (i = .reset ∧ t.phase = .init) ∨
    (s.phase = .init ∧ (t.phase = .run ∨ t.phase = .fault) ∧ ∃ nodivars iv, i = .start nodivars iv) ∨
    (s.phase = .run ∧ t.phase = .done ∧ i = .eos)) ∧
  (∀ s : Block w, ∃ t : Block w, exec .reset ⟨w, s⟩ = .next ⟨w, t⟩ ∧ t.phase = .init) ∧
  (∀ (nodivars : Nat) (iv : BitVec 8) (s : Block w), s.phase = .init →
    ∃ t : Block w, exec (.start nodivars iv) ⟨w, s⟩ = .next ⟨w, t⟩ ∧
      (t.phase = .run ∨ t.phase = .fault)) ∧
  (∀ s : Block w, s.phase = .run → s.oValid = false →
    ∃ t : Block w, exec .eos ⟨w, s⟩ = .next ⟨w, t⟩ ∧ t.phase = .done) ∧
  (∀ (s : Block w) (outReady : Bool), s.inReady outReady = true → s.phase = .run) ∧
  (∀ (s : Block w) (outReady : Bool), s.phase = .run → s.oValid = false → s.inReady outReady = true) ∧
  (∀ s : Block w, RunInv s → s.phase = .fault → s.outValid = false)

/-- R23: the latched configuration is written by START in INIT, with its operands, and by RESET, to 0, and by no
other operation; dpd is 144, 96, 48 for the legal intervals and is computed for no other. -/
def Obligations.ConfigurationWrittenByStartAndReset : Prop :=
  (∀ w : Widths,
    (∀ (nv : BitVec w.nvW) (iv : BitVec 8) (s : Block w), s.phase = .init →
      ∃ t : Block w, exec (.start nv.toNat iv) ⟨w, s⟩ = .next ⟨w, t⟩ ∧ t.cfgNv = nv ∧ t.cfgIv = iv) ∧
    (∀ s : Block w, ∃ t : Block w, exec .reset ⟨w, s⟩ = .next ⟨w, t⟩ ∧ t.cfgNv = 0 ∧ t.cfgIv = 0) ∧
    (∀ (i : Instr) (s t : Block w), exec i ⟨w, s⟩ = .next ⟨w, t⟩ →
      (t.cfgNv = s.cfgNv ∧ t.cfgIv = s.cfgIv) ∨ i = .reset ∨
      (s.phase = .init ∧ ∃ nodivars iv, i = .start nodivars iv)) ∧
    (∀ nv : BitVec w.nvW, badNoDiVars nv = true ↔ nv.toNat = 0)) ∧
  (∀ iv : BitVec 8, badInterval iv = true ↔ iv.toNat ∉ [10, 15, 30]) ∧
  dataPerDay 10 = some 144 ∧ dataPerDay 15 = some 96 ∧ dataPerDay 30 = some 48 ∧
  (∀ iv : BitVec 8, badInterval iv = true → dataPerDay iv = none)

/-- R29: the error bits are sticky: in every state of a run no operation but RESET clears a bit, RESET clears all
three, and in INIT and RUN all three are 0. -/
def Obligations.ErrorBitsAreSticky : Prop :=
  ∀ w : Widths,
  (∀ (i : Instr) (s t : Block w) (k : Nat), RunInv s → exec i ⟨w, s⟩ = .next ⟨w, t⟩ → i ≠ .reset →
    s.err.getLsbD k = true → t.err.getLsbD k = true) ∧
  (∀ s : Block w, ∃ t : Block w, exec .reset ⟨w, s⟩ = .next ⟨w, t⟩ ∧ t.err = 0) ∧
  (∀ s : Block w, RunInv s → (s.phase = .init ∨ s.phase = .run) → s.err = 0)

/-- R27, R28: `numbersRead` and `reactor` change only by RESET, or by one with a record completed (in
BYTE.COMPLETE or within REC); `reactor` only together with `rowsPrinted` returning to 0. -/
def Obligations.CountersOnlyCountRecords : Prop :=
  ∀ (w : Widths) (i : Instr) (s t : Block w), exec i ⟨w, s⟩ = .next ⟨w, t⟩ → i ≠ .reset →
    (t.numbersRead = s.numbersRead ∧ t.reactor = s.reactor ∧ t.rowsPrinted = s.rowsPrinted) ∨
    (((∃ b, i = .byteComplete b) ∨ ∃ p, i = .recLine p) ∧ t.numbersRead = s.numbersRead + 1 ∧
      ((t.reactor = s.reactor ∧ t.rowsPrinted = s.rowsPrinted) ∨
       (t.reactor = s.reactor ∧ t.rowsPrinted = s.rowsPrinted + 1) ∨
       (t.reactor = s.reactor + 1 ∧ t.rowsPrinted = 0)))

/-- R26, R105, R112: RowComplete adds cfg_iv / 60 hours to the time of the row in progress, or returns it to 0 at
a rollover. -/
def Obligations.RowCompletionAdvancesTime : Prop :=
  ∀ (w : Widths) (s : Block w),
    legalInterval s.cfgIv = true → s.rowsPrinted.toNat ≤ 1440 / s.cfgIv.toNat + 1 →
    ∃ t, rowComplete s = .next t ∧
      (s.rowsPrinted.toNat ≤ 1440 / s.cfgIv.toNat →
        t.time = s.time + (s.cfgIv.toNat : ℚ) / 60 ∧ t.reactor = s.reactor) ∧
      (1440 / s.cfgIv.toNat < s.rowsPrinted.toNat → t.time = 0 ∧ t.reactor = s.reactor + 1)

/-- R112: the binary64 sums that RETRIEVE's loop would hold: exact for intervals 15 and 30, and for interval 10 within
3.32e-14 hours of ticks/6 over a reactor's rows. The sums are computed in units of 2^-55 and rounded by `roundTo53`
(log entry 16, the model's reading); that binary64 rounds to nearest, ties to even, R112 itself marks as general
knowledge. -/
def Obligations.AccumulatedTimeAgrees : Prop :=
  hoursPerTick 10 = some 6004799503160661 ∧ hoursPerTick 15 = some (2 ^ 53) ∧
  hoursPerTick 30 = some (2 ^ 54) ∧
  (∀ j, j ≤ 97 → accumulatedTime (2 ^ 53) j = j * 2 ^ 53) ∧
  (∀ j, j ≤ 49 → accumulatedTime (2 ^ 54) j = j * 2 ^ 54) ∧
  (∀ j, j ≤ 145 →
    |(accumulatedTime 6004799503160661 j : ℚ) / 2 ^ 55 - elapsedHours 10 j| ≤ 332 / 10 ^ 16)

/-! ### Runs -/

/-- R104, R133 (95_test_vectors.md T10): in every state of a run, a token with `eor` closes a row of exactly
cfg_nv tokens in columns 0, 1, ..; `sor` marks the first, `eor` the last, and all carry the same reactor and
ticks. (`delivered`: log entry 4.) -/
def Obligations.ClosedRowsAreWhole : Prop :=
  ∀ (w : Widths) (s : Block w) (k : Nat) (u : OutTok w),
    RunInv s → (s.phase = .run ∨ s.phase = .done) →
    (s.delivered ++ s.pending)[k]? = some u → u.eor = true →
    s.cfgNv.toNat - 1 ≤ k ∧
    ∀ j, j < s.cfgNv.toNat → ∃ v, (s.delivered ++ s.pending)[k - (s.cfgNv.toNat - 1) + j]? = some v ∧
      v.eos = false ∧ v.col.toNat = j ∧ v.sor = (j == 0) ∧ v.eor = (j == s.cfgNv.toNat - 1) ∧
      v.reactor = u.reactor ∧ v.ticks = u.ticks

/-- The reset state with any stimuli the spec knows is a state of a run, at all widths. -/
def Obligations.ResetMeetsRunInvariant : Prop :=
  ∀ (w : Widths) (stim : List (Stimulus w)), (∀ x ∈ stim, x.known = true) →
    RunInv { Block.reset w with stim := stim }

/-- From every state of a run (R32, and R109 as far as the run has come) the step answers a next state, which is a
state of a run: no fault and no refusal, at all widths, for every stimulus the spec knows and for every environment
(log entries 1, 2 and 3). -/
def Obligations.StepKeepsRunInvariant : Prop :=
  ∀ (w : Widths) (s : Block w), RunInv s → ∃ t : Block w, step ⟨w, s⟩ = .next ⟨w, t⟩ ∧ RunInv t

/-- R32: every clause, in every state reached from reset by stimuli the spec knows. The stimuli and the bytes taken
are the model's own fields (log entries 2 and 4). -/
def Obligations.ReachableStatesMeetStatedInvariants : Prop :=
  ∀ (w : Widths) (stim : List (Stimulus w)) (n : Nat) (s : Block w), (∀ x ∈ stim, x.known = true) →
    Host.Core.run Sys2Proof.core n (State.mk w { Block.reset w with stim := stim }) =
      .next (State.mk w s) →
    s.bidx.toNat ≤ 5 ∧
    (s.phase = .run ∨ s.phase = .done → 1 ≤ s.cfgNv.toNat ∧ s.cfgIv.toNat ∈ [10, 15, 30]) ∧
    (s.phase = .run → s.col.toNat < s.cfgNv.toNat ∧
      s.rowsPrinted.toNat ≤ 1440 / s.cfgIv.toNat + 1 ∧ s.err = 0) ∧
    (s.phase = .init → SameBlock (Block.reset w) s) ∧
    (s.phase = .fault → s.err.extractLsb' 0 2 ≠ 0 ∧ s.err.getLsbD 2 = false ∧ s.oValid = false ∧
      SameBlock { Block.reset w with phase := .fault, cfgNv := s.cfgNv, cfgIv := s.cfgIv, err := s.err } s) ∧
    (s.phase = .done → ∀ i : Instr, i ≠ .reset → (i = .pop → s.oValid = false) →
      ∃ t : Block w, exec i ⟨w, s⟩ = .next ⟨w, t⟩ ∧ SameBlock s t) ∧
    ((s.phase = .run ∨ s.phase = .done) → s.taken.length / 6 < 2 ^ w.numreadW →
      s.taken.length / 6 / s.cfgNv.toNat / (1440 / s.cfgIv.toNat + 2) + 1 < 2 ^ w.reactorW →
      (s.numbersRead.toNat : Int) =
        (((s.reactor.toNat : Int) - 1) * (1440 / s.cfgIv.toNat + 2 : Nat) + s.rowsPrinted.toNat) *
          s.cfgNv.toNat + s.col.toNat) ∧
    (s.oValid = true → (if s.phase = .done then out s.cfgNv s.cfgIv s.taken
      else outValues s.cfgNv s.cfgIv s.taken).getLast? = some s.oTok)

/-- R109 for every schedule: whatever edges and operations come after a RESET edge, in whatever state it finds the
block, once the run is over and good the tokens delivered are `Out(nv, iv, S)` of the bytes taken, and the
final state is the one R109 states. (The stimuli, the bytes taken and the tokens delivered are the model's own fields,
log entries 2, 3 and 4.) -/
def Obligations.EveryScheduleDeliversOut : Prop :=
  ∀ (w : Widths) (p : Pins w) (stim : List (Stimulus w)) (n : Nat) (s0 s : Block w), p.rst = true →
    (∀ x ∈ stim, x.known = true) →
    Host.Core.run Sys2Proof.core (n + 1) (State.mk w { s0 with stim := .edge p :: stim }) =
      .next (State.mk w s) →
    s.overAndGood →
    s.delivered = out s.cfgNv s.cfgIv s.taken ∧
    s.err = BitVec.ofBool (s.taken.length % 6 != 0 || s.taken.length / 6 % s.cfgNv.toNat != 0) ++ 0#2 ∧
    s.numbersRead = BitVec.ofNat _ (s.taken.length / 6) ∧
    s.bidx.toNat = s.taken.length % 6 ∧ s.col.toNat = s.taken.length / 6 % s.cfgNv.toNat

/-- R109 and R153: every source, under every configuration, offered to an always-ready consumer after one RESET
edge from any state whatever, ends: over and good with exactly `Out(nv, iv, S)` delivered if the configuration
is legal, over and failed with nothing delivered if it is not. The edges are those of R69's lines (log entries 2, 4
and 15). -/
def Obligations.EverySourceRunsToItsOut : Prop :=
  ∀ (w : Widths) (nv : BitVec w.nvW) (iv : BitVec 8) (src : List Byte) (s0 : Block w),
    ∃ s : Block w, Host.Core.run Sys2Proof.core (src.length + 4)
        (State.mk w { s0 with
          stim := RunText.stimuli ⟨nv, iv, .reset :: (src.map .byte ++ [.eos])⟩ }) =
        .next (State.mk w s) ∧
      s.delivered = out nv iv src ∧
      (legalNoDiVars nv = true ∧ legalInterval iv = true → s.overAndGood ∧ s.taken = src) ∧
      (¬(legalNoDiVars nv = true ∧ legalInterval iv = true) → s.overAndFailed ∧ s.taken = [])

/-! ### Widths -/

/-- NV_W, REACTOR_W and NUMREAD_W are parameters of the machine (R6): no operation and no step changes them, and the
machine after reset is the block after reset at R6's defaults, which are legal. That the widths are a field of the
state is the model's choice (log entry 1). -/
def Obligations.WidthsNeverChange : Prop :=
  (∀ (i : Instr) (s t : State), exec i s = .next t → t.widths = s.widths) ∧
  (∀ s t : State, step s = .next t → t.widths = s.widths) ∧
  State.reset = ⟨⟨16, 32, 64⟩, Block.reset ⟨16, 32, 64⟩⟩ ∧ State.reset.widths.legal = true
end

