-- ==== Sys2Proof/Laws/State.lean ====
section
/-! SUPPORT. One lemma per field per update of the block, so that no later proof unfolds a record update. -/

namespace Sys2Proof.Machine

variable {w : Widths}

@[simp] theorem outPush_phase (t : OutTok w) (s : Block w) : (outPush t s).phase = s.phase := rfl
@[simp] theorem outPush_cfgNv (t : OutTok w) (s : Block w) : (outPush t s).cfgNv = s.cfgNv := rfl
@[simp] theorem outPush_cfgIv (t : OutTok w) (s : Block w) : (outPush t s).cfgIv = s.cfgIv := rfl
@[simp] theorem outPush_sr (t : OutTok w) (s : Block w) : (outPush t s).sr = s.sr := rfl
@[simp] theorem outPush_bidx (t : OutTok w) (s : Block w) : (outPush t s).bidx = s.bidx := rfl
@[simp] theorem outPush_col (t : OutTok w) (s : Block w) : (outPush t s).col = s.col := rfl
@[simp] theorem outPush_rowsPrinted (t : OutTok w) (s : Block w) : (outPush t s).rowsPrinted = s.rowsPrinted := rfl
@[simp] theorem outPush_reactor (t : OutTok w) (s : Block w) : (outPush t s).reactor = s.reactor := rfl
@[simp] theorem outPush_numbersRead (t : OutTok w) (s : Block w) : (outPush t s).numbersRead = s.numbersRead := rfl
@[simp] theorem outPush_err (t : OutTok w) (s : Block w) : (outPush t s).err = s.err := rfl
@[simp] theorem outPush_oValid (t : OutTok w) (s : Block w) : (outPush t s).oValid = true := rfl
@[simp] theorem outPush_oTok (t : OutTok w) (s : Block w) : (outPush t s).oTok = t := rfl
@[simp] theorem outPush_stim (t : OutTok w) (s : Block w) : (outPush t s).stim = s.stim := rfl
@[simp] theorem outPush_freeEdges (t : OutTok w) (s : Block w) : (outPush t s).freeEdges = s.freeEdges := rfl
@[simp] theorem outPush_taken (t : OutTok w) (s : Block w) : (outPush t s).taken = s.taken := rfl
@[simp] theorem outPush_delivered (t : OutTok w) (s : Block w) : (outPush t s).delivered = s.delivered := rfl
@[simp] theorem outPush_results (t : OutTok w) (s : Block w) : (outPush t s).results = s.results := rfl

@[simp] theorem popToken_phase (s : Block w) : (popToken s).phase = s.phase := rfl
@[simp] theorem popToken_cfgNv (s : Block w) : (popToken s).cfgNv = s.cfgNv := rfl
@[simp] theorem popToken_cfgIv (s : Block w) : (popToken s).cfgIv = s.cfgIv := rfl
@[simp] theorem popToken_sr (s : Block w) : (popToken s).sr = s.sr := rfl
@[simp] theorem popToken_bidx (s : Block w) : (popToken s).bidx = s.bidx := rfl
@[simp] theorem popToken_col (s : Block w) : (popToken s).col = s.col := rfl
@[simp] theorem popToken_rowsPrinted (s : Block w) : (popToken s).rowsPrinted = s.rowsPrinted := rfl
@[simp] theorem popToken_reactor (s : Block w) : (popToken s).reactor = s.reactor := rfl
@[simp] theorem popToken_numbersRead (s : Block w) : (popToken s).numbersRead = s.numbersRead := rfl
@[simp] theorem popToken_err (s : Block w) : (popToken s).err = s.err := rfl
@[simp] theorem popToken_oValid (s : Block w) : (popToken s).oValid = false := rfl
@[simp] theorem popToken_oTok (s : Block w) : (popToken s).oTok = s.oTok := rfl
@[simp] theorem popToken_stim (s : Block w) : (popToken s).stim = s.stim := rfl
@[simp] theorem popToken_freeEdges (s : Block w) : (popToken s).freeEdges = s.freeEdges := rfl
@[simp] theorem popToken_taken (s : Block w) : (popToken s).taken = s.taken := rfl
@[simp] theorem popToken_delivered (s : Block w) : (popToken s).delivered = s.delivered ++ [s.oTok] := rfl
@[simp] theorem popToken_results (s : Block w) : (popToken s).results = s.results := rfl

@[simp] theorem takeByte_phase (b : Byte) (s : Block w) : (takeByte b s).phase = s.phase := rfl
@[simp] theorem takeByte_cfgNv (b : Byte) (s : Block w) : (takeByte b s).cfgNv = s.cfgNv := rfl
@[simp] theorem takeByte_cfgIv (b : Byte) (s : Block w) : (takeByte b s).cfgIv = s.cfgIv := rfl
@[simp] theorem takeByte_sr (b : Byte) (s : Block w) : (takeByte b s).sr = s.sr := rfl
@[simp] theorem takeByte_bidx (b : Byte) (s : Block w) : (takeByte b s).bidx = s.bidx := rfl
@[simp] theorem takeByte_col (b : Byte) (s : Block w) : (takeByte b s).col = s.col := rfl
@[simp] theorem takeByte_rowsPrinted (b : Byte) (s : Block w) : (takeByte b s).rowsPrinted = s.rowsPrinted := rfl
@[simp] theorem takeByte_reactor (b : Byte) (s : Block w) : (takeByte b s).reactor = s.reactor := rfl
@[simp] theorem takeByte_numbersRead (b : Byte) (s : Block w) : (takeByte b s).numbersRead = s.numbersRead := rfl
@[simp] theorem takeByte_err (b : Byte) (s : Block w) : (takeByte b s).err = s.err := rfl
@[simp] theorem takeByte_oValid (b : Byte) (s : Block w) : (takeByte b s).oValid = s.oValid := rfl
@[simp] theorem takeByte_oTok (b : Byte) (s : Block w) : (takeByte b s).oTok = s.oTok := rfl
@[simp] theorem takeByte_stim (b : Byte) (s : Block w) : (takeByte b s).stim = s.stim := rfl
@[simp] theorem takeByte_freeEdges (b : Byte) (s : Block w) : (takeByte b s).freeEdges = s.freeEdges := rfl
@[simp] theorem takeByte_taken (b : Byte) (s : Block w) : (takeByte b s).taken = s.taken ++ [b] := rfl
@[simp] theorem takeByte_delivered (b : Byte) (s : Block w) : (takeByte b s).delivered = s.delivered := rfl
@[simp] theorem takeByte_results (b : Byte) (s : Block w) : (takeByte b s).results = s.results := rfl

@[simp] theorem storeByte_phase (b : Byte) (s : Block w) : (storeByte b s).phase = s.phase := rfl
@[simp] theorem storeByte_cfgNv (b : Byte) (s : Block w) : (storeByte b s).cfgNv = s.cfgNv := rfl
@[simp] theorem storeByte_cfgIv (b : Byte) (s : Block w) : (storeByte b s).cfgIv = s.cfgIv := rfl
@[simp] theorem storeByte_sr (b : Byte) (s : Block w) : (storeByte b s).sr = s.sr.setIfInBounds s.bidx.toNat b := rfl
@[simp] theorem storeByte_bidx (b : Byte) (s : Block w) : (storeByte b s).bidx = s.bidx + 1 := rfl
@[simp] theorem storeByte_col (b : Byte) (s : Block w) : (storeByte b s).col = s.col := rfl
@[simp] theorem storeByte_rowsPrinted (b : Byte) (s : Block w) : (storeByte b s).rowsPrinted = s.rowsPrinted := rfl
@[simp] theorem storeByte_reactor (b : Byte) (s : Block w) : (storeByte b s).reactor = s.reactor := rfl
@[simp] theorem storeByte_numbersRead (b : Byte) (s : Block w) : (storeByte b s).numbersRead = s.numbersRead := rfl
@[simp] theorem storeByte_err (b : Byte) (s : Block w) : (storeByte b s).err = s.err := rfl
@[simp] theorem storeByte_oValid (b : Byte) (s : Block w) : (storeByte b s).oValid = s.oValid := rfl
@[simp] theorem storeByte_oTok (b : Byte) (s : Block w) : (storeByte b s).oTok = s.oTok := rfl
@[simp] theorem storeByte_stim (b : Byte) (s : Block w) : (storeByte b s).stim = s.stim := rfl
@[simp] theorem storeByte_freeEdges (b : Byte) (s : Block w) : (storeByte b s).freeEdges = s.freeEdges := rfl
@[simp] theorem storeByte_taken (b : Byte) (s : Block w) : (storeByte b s).taken = s.taken := rfl
@[simp] theorem storeByte_delivered (b : Byte) (s : Block w) : (storeByte b s).delivered = s.delivered := rfl
@[simp] theorem storeByte_results (b : Byte) (s : Block w) : (storeByte b s).results = s.results := rfl

@[simp] theorem raise_phase (c : Condition) (s : Block w) : (raise c s).phase = c.phaseAfter := rfl
@[simp] theorem raise_cfgNv (c : Condition) (s : Block w) : (raise c s).cfgNv = s.cfgNv := rfl
@[simp] theorem raise_cfgIv (c : Condition) (s : Block w) : (raise c s).cfgIv = s.cfgIv := rfl
@[simp] theorem raise_sr (c : Condition) (s : Block w) : (raise c s).sr = s.sr := rfl
@[simp] theorem raise_bidx (c : Condition) (s : Block w) : (raise c s).bidx = s.bidx := rfl
@[simp] theorem raise_col (c : Condition) (s : Block w) : (raise c s).col = s.col := rfl
@[simp] theorem raise_rowsPrinted (c : Condition) (s : Block w) : (raise c s).rowsPrinted = s.rowsPrinted := rfl
@[simp] theorem raise_reactor (c : Condition) (s : Block w) : (raise c s).reactor = s.reactor := rfl
@[simp] theorem raise_numbersRead (c : Condition) (s : Block w) : (raise c s).numbersRead = s.numbersRead := rfl
@[simp] theorem raise_err (c : Condition) (s : Block w) : (raise c s).err = writeErr c true s.err := rfl
@[simp] theorem raise_oValid (c : Condition) (s : Block w) : (raise c s).oValid = s.oValid := rfl
@[simp] theorem raise_oTok (c : Condition) (s : Block w) : (raise c s).oTok = s.oTok := rfl
@[simp] theorem raise_stim (c : Condition) (s : Block w) : (raise c s).stim = s.stim := rfl
@[simp] theorem raise_freeEdges (c : Condition) (s : Block w) : (raise c s).freeEdges = s.freeEdges := rfl
@[simp] theorem raise_taken (c : Condition) (s : Block w) : (raise c s).taken = s.taken := rfl
@[simp] theorem raise_delivered (c : Condition) (s : Block w) : (raise c s).delivered = s.delivered := rfl
@[simp] theorem raise_results (c : Condition) (s : Block w) : (raise c s).results = s.results := rfl

@[simp] theorem driveResult_phase (p : PackedReal) (s : Block w) : (driveResult p s).phase = s.phase := rfl
@[simp] theorem driveResult_cfgNv (p : PackedReal) (s : Block w) : (driveResult p s).cfgNv = s.cfgNv := rfl
@[simp] theorem driveResult_cfgIv (p : PackedReal) (s : Block w) : (driveResult p s).cfgIv = s.cfgIv := rfl
@[simp] theorem driveResult_sr (p : PackedReal) (s : Block w) : (driveResult p s).sr = s.sr := rfl
@[simp] theorem driveResult_bidx (p : PackedReal) (s : Block w) : (driveResult p s).bidx = s.bidx := rfl
@[simp] theorem driveResult_col (p : PackedReal) (s : Block w) : (driveResult p s).col = s.col := rfl
@[simp] theorem driveResult_rowsPrinted (p : PackedReal) (s : Block w) : (driveResult p s).rowsPrinted = s.rowsPrinted := rfl
@[simp] theorem driveResult_reactor (p : PackedReal) (s : Block w) : (driveResult p s).reactor = s.reactor := rfl
@[simp] theorem driveResult_numbersRead (p : PackedReal) (s : Block w) : (driveResult p s).numbersRead = s.numbersRead := rfl
@[simp] theorem driveResult_err (p : PackedReal) (s : Block w) : (driveResult p s).err = s.err := rfl
@[simp] theorem driveResult_oValid (p : PackedReal) (s : Block w) : (driveResult p s).oValid = s.oValid := rfl
@[simp] theorem driveResult_oTok (p : PackedReal) (s : Block w) : (driveResult p s).oTok = s.oTok := rfl
@[simp] theorem driveResult_stim (p : PackedReal) (s : Block w) : (driveResult p s).stim = s.stim := rfl
@[simp] theorem driveResult_freeEdges (p : PackedReal) (s : Block w) : (driveResult p s).freeEdges = s.freeEdges := rfl
@[simp] theorem driveResult_taken (p : PackedReal) (s : Block w) : (driveResult p s).taken = s.taken := rfl
@[simp] theorem driveResult_delivered (p : PackedReal) (s : Block w) : (driveResult p s).delivered = s.delivered := rfl
@[simp] theorem driveResult_results (p : PackedReal) (s : Block w) : (driveResult p s).results = s.results ++ [decode48 p] := rfl

@[simp] theorem resetBlock_phase (s : Block w) : (resetBlock s).phase = .init := rfl
@[simp] theorem resetBlock_cfgNv (s : Block w) : (resetBlock s).cfgNv = 0 := rfl
@[simp] theorem resetBlock_cfgIv (s : Block w) : (resetBlock s).cfgIv = 0 := rfl
@[simp] theorem resetBlock_sr (s : Block w) : (resetBlock s).sr = Vector.replicate 5 0 := rfl
@[simp] theorem resetBlock_bidx (s : Block w) : (resetBlock s).bidx = 0 := rfl
@[simp] theorem resetBlock_col (s : Block w) : (resetBlock s).col = 0 := rfl
@[simp] theorem resetBlock_rowsPrinted (s : Block w) : (resetBlock s).rowsPrinted = 0 := rfl
@[simp] theorem resetBlock_reactor (s : Block w) : (resetBlock s).reactor = 1 := rfl
@[simp] theorem resetBlock_numbersRead (s : Block w) : (resetBlock s).numbersRead = 0 := rfl
@[simp] theorem resetBlock_err (s : Block w) : (resetBlock s).err = 0 := rfl
@[simp] theorem resetBlock_oValid (s : Block w) : (resetBlock s).oValid = false := rfl
@[simp] theorem resetBlock_oTok (s : Block w) : (resetBlock s).oTok = OutTok.zero w := rfl
@[simp] theorem resetBlock_stim (s : Block w) : (resetBlock s).stim = s.stim := rfl
@[simp] theorem resetBlock_freeEdges (s : Block w) : (resetBlock s).freeEdges = s.freeEdges := rfl
@[simp] theorem resetBlock_taken (s : Block w) : (resetBlock s).taken = [] := rfl
@[simp] theorem resetBlock_delivered (s : Block w) : (resetBlock s).delivered = [] := rfl
@[simp] theorem resetBlock_results (s : Block w) : (resetBlock s).results = s.results := rfl

@[simp] theorem raiseIf_cfgNv (c : Condition) (h : Bool) (s : Block w) :
    (raiseIf c h s).cfgNv = s.cfgNv := by cases h <;> rfl
@[simp] theorem raiseIf_cfgIv (c : Condition) (h : Bool) (s : Block w) :
    (raiseIf c h s).cfgIv = s.cfgIv := by cases h <;> rfl
@[simp] theorem raiseIf_sr (c : Condition) (h : Bool) (s : Block w) :
    (raiseIf c h s).sr = s.sr := by cases h <;> rfl
@[simp] theorem raiseIf_bidx (c : Condition) (h : Bool) (s : Block w) :
    (raiseIf c h s).bidx = s.bidx := by cases h <;> rfl
@[simp] theorem raiseIf_col (c : Condition) (h : Bool) (s : Block w) :
    (raiseIf c h s).col = s.col := by cases h <;> rfl
@[simp] theorem raiseIf_rowsPrinted (c : Condition) (h : Bool) (s : Block w) :
    (raiseIf c h s).rowsPrinted = s.rowsPrinted := by cases h <;> rfl
@[simp] theorem raiseIf_reactor (c : Condition) (h : Bool) (s : Block w) :
    (raiseIf c h s).reactor = s.reactor := by cases h <;> rfl
@[simp] theorem raiseIf_numbersRead (c : Condition) (h : Bool) (s : Block w) :
    (raiseIf c h s).numbersRead = s.numbersRead := by cases h <;> rfl
@[simp] theorem raiseIf_oValid (c : Condition) (h : Bool) (s : Block w) :
    (raiseIf c h s).oValid = s.oValid := by cases h <;> rfl
@[simp] theorem raiseIf_oTok (c : Condition) (h : Bool) (s : Block w) :
    (raiseIf c h s).oTok = s.oTok := by cases h <;> rfl
@[simp] theorem raiseIf_stim (c : Condition) (h : Bool) (s : Block w) :
    (raiseIf c h s).stim = s.stim := by cases h <;> rfl
@[simp] theorem raiseIf_freeEdges (c : Condition) (h : Bool) (s : Block w) :
    (raiseIf c h s).freeEdges = s.freeEdges := by cases h <;> rfl
@[simp] theorem raiseIf_taken (c : Condition) (h : Bool) (s : Block w) :
    (raiseIf c h s).taken = s.taken := by cases h <;> rfl
@[simp] theorem raiseIf_delivered (c : Condition) (h : Bool) (s : Block w) :
    (raiseIf c h s).delivered = s.delivered := by cases h <;> rfl
@[simp] theorem raiseIf_results (c : Condition) (h : Bool) (s : Block w) :
    (raiseIf c h s).results = s.results := by cases h <;> rfl
@[simp] theorem raiseIf_err (c : Condition) (h : Bool) (s : Block w) :
    (raiseIf c h s).err = writeErr c h s.err := by cases h <;> rfl
@[simp] theorem raiseIf_phase (c : Condition) (h : Bool) (s : Block w) :
    (raiseIf c h s).phase = if h then c.phaseAfter else s.phase := by cases h <;> rfl

@[simp] theorem latchConfig_cfgNv (nv : BitVec w.nvW) (iv : BitVec 8) (s : Block w) :
    (latchConfig nv iv s).cfgNv = nv := by simp [latchConfig]
@[simp] theorem latchConfig_cfgIv (nv : BitVec w.nvW) (iv : BitVec 8) (s : Block w) :
    (latchConfig nv iv s).cfgIv = iv := by simp [latchConfig]
@[simp] theorem latchConfig_sr (nv : BitVec w.nvW) (iv : BitVec 8) (s : Block w) :
    (latchConfig nv iv s).sr = s.sr := by simp [latchConfig]
@[simp] theorem latchConfig_bidx (nv : BitVec w.nvW) (iv : BitVec 8) (s : Block w) :
    (latchConfig nv iv s).bidx = s.bidx := by simp [latchConfig]
@[simp] theorem latchConfig_col (nv : BitVec w.nvW) (iv : BitVec 8) (s : Block w) :
    (latchConfig nv iv s).col = s.col := by simp [latchConfig]
@[simp] theorem latchConfig_rowsPrinted (nv : BitVec w.nvW) (iv : BitVec 8) (s : Block w) :
    (latchConfig nv iv s).rowsPrinted = s.rowsPrinted := by simp [latchConfig]
@[simp] theorem latchConfig_reactor (nv : BitVec w.nvW) (iv : BitVec 8) (s : Block w) :
    (latchConfig nv iv s).reactor = s.reactor := by simp [latchConfig]
@[simp] theorem latchConfig_numbersRead (nv : BitVec w.nvW) (iv : BitVec 8) (s : Block w) :
    (latchConfig nv iv s).numbersRead = s.numbersRead := by simp [latchConfig]
@[simp] theorem latchConfig_oValid (nv : BitVec w.nvW) (iv : BitVec 8) (s : Block w) :
    (latchConfig nv iv s).oValid = s.oValid := by simp [latchConfig]
@[simp] theorem latchConfig_oTok (nv : BitVec w.nvW) (iv : BitVec 8) (s : Block w) :
    (latchConfig nv iv s).oTok = s.oTok := by simp [latchConfig]
@[simp] theorem latchConfig_stim (nv : BitVec w.nvW) (iv : BitVec 8) (s : Block w) :
    (latchConfig nv iv s).stim = s.stim := by simp [latchConfig]
@[simp] theorem latchConfig_freeEdges (nv : BitVec w.nvW) (iv : BitVec 8) (s : Block w) :
    (latchConfig nv iv s).freeEdges = s.freeEdges := by simp [latchConfig]
@[simp] theorem latchConfig_taken (nv : BitVec w.nvW) (iv : BitVec 8) (s : Block w) :
    (latchConfig nv iv s).taken = s.taken := by simp [latchConfig]
@[simp] theorem latchConfig_delivered (nv : BitVec w.nvW) (iv : BitVec 8) (s : Block w) :
    (latchConfig nv iv s).delivered = s.delivered := by simp [latchConfig]
@[simp] theorem latchConfig_results (nv : BitVec w.nvW) (iv : BitVec 8) (s : Block w) :
    (latchConfig nv iv s).results = s.results := by simp [latchConfig]
@[simp] theorem endStream_cfgNv (s : Block w) :
    (endStream s).cfgNv = s.cfgNv := by simp [endStream]
@[simp] theorem endStream_cfgIv (s : Block w) :
    (endStream s).cfgIv = s.cfgIv := by simp [endStream]
@[simp] theorem endStream_sr (s : Block w) :
    (endStream s).sr = s.sr := by simp [endStream]
@[simp] theorem endStream_bidx (s : Block w) :
    (endStream s).bidx = s.bidx := by simp [endStream]
@[simp] theorem endStream_col (s : Block w) :
    (endStream s).col = s.col := by simp [endStream]
@[simp] theorem endStream_rowsPrinted (s : Block w) :
    (endStream s).rowsPrinted = s.rowsPrinted := by simp [endStream]
@[simp] theorem endStream_reactor (s : Block w) :
    (endStream s).reactor = s.reactor := by simp [endStream]
@[simp] theorem endStream_numbersRead (s : Block w) :
    (endStream s).numbersRead = s.numbersRead := by simp [endStream]
@[simp] theorem endStream_oValid (s : Block w) :
    (endStream s).oValid = true := by simp [endStream]
@[simp] theorem endStream_oTok (s : Block w) :
    (endStream s).oTok = endToken s := by simp [endStream]
@[simp] theorem endStream_stim (s : Block w) :
    (endStream s).stim = s.stim := by simp [endStream]
@[simp] theorem endStream_freeEdges (s : Block w) :
    (endStream s).freeEdges = s.freeEdges := by simp [endStream]
@[simp] theorem endStream_taken (s : Block w) :
    (endStream s).taken = s.taken := by simp [endStream]
@[simp] theorem endStream_delivered (s : Block w) :
    (endStream s).delivered = s.delivered := by simp [endStream]
@[simp] theorem endStream_results (s : Block w) :
    (endStream s).results = s.results := by simp [endStream]
@[simp] theorem latchConfig_phase (nv : BitVec w.nvW) (iv : BitVec 8) (s : Block w) :
    (latchConfig nv iv s).phase = if badNoDiVars nv || badInterval iv then .fault else .run := by
  unfold latchConfig
  cases badNoDiVars nv <;> cases badInterval iv <;> rfl
@[simp] theorem latchConfig_err (nv : BitVec w.nvW) (iv : BitVec 8) (s : Block w) :
    (latchConfig nv iv s).err =
      writeErr .unsupportedInterval (badInterval iv)
        (writeErr .invalidConfiguration (badNoDiVars nv) s.err) := by
  simp [latchConfig]
@[simp] theorem endStream_phase (s : Block w) : (endStream s).phase = .done := by
  unfold endStream
  cases s.recordOpen || s.rowOpen <;> rfl
@[simp] theorem endStream_err (s : Block w) :
    (endStream s).err = writeErr .truncatedRecord (s.recordOpen || s.rowOpen) s.err := by
  simp [endStream]

end Sys2Proof.Machine
end

