-- ==== Sys2Proof/Laws/Ops.lean ====
section
/-! SUPPORT. One lemma per shared operation that says once everything it can do: if it answers a next state,
then one of the listed cases holds. -/

namespace Sys2Proof.Machine

variable {w : Widths}

section AndThen

variable {α β : Type}

@[simp] theorem andThen_next_left (a : α) (f : α → Host.Outcome β Fault Refusal) :
    andThen (.next a) f = f a := rfl
@[simp] theorem andThen_fault (r : Fault) (f : α → Host.Outcome β Fault Refusal) :
    andThen (.fault r) f = .fault r := rfl
@[simp] theorem andThen_refused (r : Refusal) (f : α → Host.Outcome β Fault Refusal) :
    andThen (.refused r) f = .refused r := rfl

theorem andThen_eq_next {o : Host.Outcome α Fault Refusal} {f : α → Host.Outcome β Fault Refusal}
    {t : β} : andThen o f = .next t ↔ ∃ s, o = .next s ∧ f s = .next t := by
  cases o <;> simp [andThen]

@[simp] theorem andThen_next_right (o : Host.Outcome α Fault Refusal) : andThen o .next = o := by
  cases o <;> rfl

end AndThen

/-- Everything an operation of the block can do to the machine: its effect on the block, the widths kept. -/
theorem onBlock_eq_next {s : Block w} {u : State}
    {f : Block w → Host.Outcome (Block w) Fault Refusal} :
    State.onBlock ⟨w, s⟩ f = .next u ↔ ∃ t, f s = .next t ∧ u = ⟨w, t⟩ := by
  unfold State.onBlock
  rw [andThen_eq_next]
  simp only [Host.Outcome.next.injEq, eq_comm (b := u)]

theorem onBlock_next {s t : Block w} {f : Block w → Host.Outcome (Block w) Fault Refusal}
    (h : f s = .next t) : State.onBlock ⟨w, s⟩ f = .next ⟨w, t⟩ := onBlock_eq_next.2 ⟨t, h, rfl⟩

/-- The legal intervals, one by one (R66). -/
theorem legalInterval_iff (iv : BitVec 8) :
    legalInterval iv = true ↔ iv = 10 ∨ iv = 15 ∨ iv = 30 := by
  revert iv; decide

theorem legalNoDiVars_iff (nv : BitVec w.nvW) : legalNoDiVars nv = true ↔ 1 ≤ nv.toNat :=
  decide_eq_true_iff

theorem dataPerDay_of_legal {iv : BitVec 8} (h : legalInterval iv = true) :
    dataPerDay iv = some (1440 / iv.toNat) := by
  simp [dataPerDay, h, Config.dayMinutes]

theorem inputEnabled_iff (s : Block w) :
    s.inputEnabled = true ↔ s.phase = .run ∧ s.oValid = false := by
  simp [Block.inputEnabled]

/-- Everything RowComplete can do (R105). -/
theorem rowComplete_cases {s t : Block w} (h : rowComplete s = .next t) :
    ∃ dpd, dataPerDay s.cfgIv = some dpd ∧
      ((dpd < s.rowsPrinted.toNat ∧ t = { s with rowsPrinted := 0, reactor := s.reactor + 1 }) ∨
       (s.rowsPrinted.toNat ≤ dpd ∧ t = { s with rowsPrinted := s.rowsPrinted + 1 })) := by
  unfold rowComplete at h
  split at h
  · cases h
  · rename_i dpd hd
    refine ⟨dpd, hd, ?_⟩
    split at h <;> cases h
    · exact .inl ⟨‹_›, rfl⟩
    · exact .inr ⟨by omega, rfl⟩

/-- With a legal interval RowComplete answers a next state. -/
theorem rowComplete_of_legal {s : Block w} (h : legalInterval s.cfgIv = true) :
    rowComplete s =
      if 1440 / s.cfgIv.toNat < s.rowsPrinted.toNat then
        .next { s with rowsPrinted := 0, reactor := s.reactor + 1 }
      else .next { s with rowsPrinted := s.rowsPrinted + 1 } := by
  simp [rowComplete, dataPerDay_of_legal h]

/-- Everything the column update can do (R103). -/
theorem advanceColumn_cases {s t : Block w} (h : advanceColumn s = .next t) :
    (s.lastColumn = true ∧ rowComplete { s with col := 0 } = .next t) ∨
    (s.lastColumn = false ∧ t = { s with col := s.col + 1 }) := by
  unfold advanceColumn at h
  split at h
  · exact .inl ⟨‹_›, h⟩
  · cases h; exact .inr ⟨Bool.eq_false_of_not_eq_true ‹_›, rfl⟩

/-- Everything the completion of a record can do (R103, R105). -/
theorem completeRecord_cases {b : Byte} {s t : Block w} (h : completeRecord b s = .next t) :
    (s.lastColumn = false ∧
      t = { outPush (valueToken (s.record b) s) s with
              bidx := 0, numbersRead := s.numbersRead + 1, col := s.col + 1 }) ∨
    (s.lastColumn = true ∧ ∃ dpd, dataPerDay s.cfgIv = some dpd ∧
      ((dpd < s.rowsPrinted.toNat ∧
        t = { outPush (valueToken (s.record b) s) s with
                bidx := 0, numbersRead := s.numbersRead + 1, col := 0, rowsPrinted := 0,
                reactor := s.reactor + 1 }) ∨
       (s.rowsPrinted.toNat ≤ dpd ∧
        t = { outPush (valueToken (s.record b) s) s with
                bidx := 0, numbersRead := s.numbersRead + 1, col := 0,
                rowsPrinted := s.rowsPrinted + 1 }))) := by
  rcases advanceColumn_cases h with ⟨hl, hr⟩ | ⟨hl, rfl⟩
  · refine .inr ⟨hl, ?_⟩
    obtain ⟨dpd, hd, hc⟩ := rowComplete_cases hr
    exact ⟨dpd, hd, hc⟩
  · exact .inl ⟨hl, rfl⟩

/-- Everything the token BYTE(b) can do once taken (R102, R103). -/
theorem acceptByte_cases {b : Byte} {s t : Block w} (h : acceptByte b s = .next t) :
    (s.bidx < 5 ∧ t = storeByte b (takeByte b s)) ∨
    (s.bidx = 5 ∧ completeRecord b (takeByte b s) = .next t) := by
  unfold acceptByte at h
  split at h
  · cases h; exact .inl ⟨‹_›, rfl⟩
  · split at h
    · exact .inr ⟨‹_›, h⟩
    · cases h

/-- Everything a transfer of BYTE(b) can do (R41, R100). -/
theorem transferByte_cases {b : Byte} {s t : Block w} (h : transferByte b s = .next t) :
    (s.oValid = true ∧ acceptByte b (popToken s) = .next t) ∨
    (s.oValid = false ∧ acceptByte b s = .next t) := by
  unfold transferByte at h
  cases hv : s.oValid <;> simp [hv] at h
  · exact .inr ⟨rfl, h⟩
  · exact .inl ⟨rfl, h⟩

/-! ### The operations of the table -/

/-- Everything BYTE.STORE can do (R102). -/
theorem execByteStore_cases {b : Byte} {s : Block w} {u : State} (h : execByteStore b ⟨w, s⟩ = .next u) :
    (s.inputEnabled = true ∧ s.bidx < 5 ∧ u = ⟨w, storeByte b (takeByte b s)⟩) ∨
    (s.inputEnabled = false ∧ u = ⟨w, s⟩) := by
  unfold execByteStore at h
  rw [onBlock_eq_next] at h
  obtain ⟨t, h, rfl⟩ := h
  split at h
  · split at h
    · cases h; exact .inl ⟨‹_›, ‹_›, rfl⟩
    · cases h
  · cases h; exact .inr ⟨Bool.eq_false_of_not_eq_true ‹_›, rfl⟩

/-- Everything BYTE.COMPLETE can do (R103). -/
theorem execByteComplete_cases {b : Byte} {s : Block w} {u : State}
    (h : execByteComplete b ⟨w, s⟩ = .next u) :
    (s.inputEnabled = true ∧ s.bidx = 5 ∧
      ∃ t, completeRecord b (takeByte b s) = .next t ∧ u = ⟨w, t⟩) ∨
    (s.inputEnabled = false ∧ u = ⟨w, s⟩) := by
  unfold execByteComplete at h
  rw [onBlock_eq_next] at h
  obtain ⟨t, h, rfl⟩ := h
  split at h
  · split at h
    · exact .inl ⟨‹_›, ‹_›, t, h, rfl⟩
    · cases h
  · cases h; exact .inr ⟨Bool.eq_false_of_not_eq_true ‹_›, rfl⟩

/-- Everything EOS can do (R106). -/
theorem execEos_cases {s : Block w} {u : State} (h : execEos ⟨w, s⟩ = .next u) :
    (s.inputEnabled = true ∧ u = ⟨w, endStream s⟩) ∨ (s.inputEnabled = false ∧ u = ⟨w, s⟩) := by
  unfold execEos at h
  rw [onBlock_eq_next] at h
  obtain ⟨t, h, rfl⟩ := h
  split at h <;> cases h
  · exact .inl ⟨‹_›, rfl⟩
  · exact .inr ⟨Bool.eq_false_of_not_eq_true ‹_›, rfl⟩

/-- Everything REC can do: six transfers in RUN, nothing elsewhere (R69). -/
theorem execRecLine_cases {p : PackedReal} {s : Block w} {u : State}
    (h : execRecLine p ⟨w, s⟩ = .next u) :
    (s.phase = .run ∧ ∃ s1 s2 s3 s4 s5 t,
      transferByte (literalByte p 0) s = .next s1 ∧ transferByte (literalByte p 1) s1 = .next s2 ∧
      transferByte (literalByte p 2) s2 = .next s3 ∧ transferByte (literalByte p 3) s3 = .next s4 ∧
      transferByte (literalByte p 4) s4 = .next s5 ∧ transferByte (literalByte p 5) s5 = .next t ∧
      u = ⟨w, t⟩) ∨
    (s.phase ≠ .run ∧ u = ⟨w, s⟩) := by
  unfold execRecLine at h
  rw [onBlock_eq_next] at h
  obtain ⟨t, h, rfl⟩ := h
  split at h
  · simp only [andThen_eq_next] at h
    obtain ⟨s1, h1, s2, h2, s3, h3, s4, h4, s5, h5, h6⟩ := h
    exact .inl ⟨‹_›, s1, s2, s3, s4, s5, t, h1, h2, h3, h4, h5, h6, rfl⟩
  · cases h; exact .inr ⟨‹_›, rfl⟩

/-- Everything START can do (R101). -/
theorem execStart_cases {n : Nat} {iv : BitVec 8} {s : Block w} {u : State}
    (h : execStart n iv ⟨w, s⟩ = .next u) :
    (s.phase = .init ∧ u = ⟨w, latchConfig (BitVec.ofNat _ n) iv s⟩) ∨
    (s.phase ≠ .init ∧ u = ⟨w, s⟩) := by
  unfold execStart at h
  rw [onBlock_eq_next] at h
  obtain ⟨t, h, rfl⟩ := h
  split at h <;> cases h
  · exact .inl ⟨‹_›, rfl⟩
  · exact .inr ⟨‹_›, rfl⟩

/-- Everything POP can do (R107). -/
theorem execPop_cases {s : Block w} {u : State} (h : execPop ⟨w, s⟩ = .next u) :
    (s.oValid = true ∧ u = ⟨w, popToken s⟩) ∨ (s.oValid = false ∧ u = ⟨w, s⟩) := by
  unfold execPop at h
  rw [onBlock_eq_next] at h
  obtain ⟨t, h, rfl⟩ := h
  split at h <;> cases h
  · exact .inl ⟨‹_›, rfl⟩
  · exact .inr ⟨Bool.eq_false_of_not_eq_true ‹_›, rfl⟩

theorem pushWhenEnabled_cases (k : OutTok w) (s : Block w) :
    (s.inputEnabled = true ∧ pushWhenEnabled k s = outPush k s) ∨
    (s.inputEnabled = false ∧ pushWhenEnabled k s = s) := by
  unfold pushWhenEnabled
  cases h : s.inputEnabled <;> simp

/-- An operation on a block of the widths `w` answers a block of the widths `w` (R6). -/
theorem exec_block {i : Instr} {s : Block w} {u : State} (h : exec i ⟨w, s⟩ = .next u) :
    ∃ t : Block w, u = ⟨w, t⟩ := by
  have key : ∀ {f : Block w → Host.Outcome (Block w) Fault Refusal},
      State.onBlock ⟨w, s⟩ f = .next u → ∃ t : Block w, u = ⟨w, t⟩ := fun h => by
    obtain ⟨t, _, rfl⟩ := onBlock_eq_next.1 h
    exact ⟨t, rfl⟩
  cases i <;> exact key (f := _) (by unfold exec at h; exact h)

@[simp] theorem runOps_nil (s : State) : runOps [] s = .next s := rfl

@[simp] theorem runOps_cons (i : Instr) (is : List Instr) (s : State) :
    runOps (i :: is) s = andThen (exec i s) (runOps is) := rfl

theorem runOps_single (i : Instr) (s : State) : runOps [i] s = exec i s :=
  andThen_next_right (exec i s)

/-- So does a sequence of operations. -/
theorem runOps_block {is : List Instr} {s : Block w} {u : State} (h : runOps is ⟨w, s⟩ = .next u) :
    ∃ t : Block w, u = ⟨w, t⟩ := by
  induction is generalizing s with
  | nil => cases h; exact ⟨s, rfl⟩
  | cons i is ih =>
    obtain ⟨v, h1, h2⟩ := andThen_eq_next.1 h
    obtain ⟨t, rfl⟩ := exec_block h1
    exact ih h2

end Sys2Proof.Machine
end

