-- ==== Sys2Proof/Laws/Encode.lean ====
section
/-! SUPPORT. The word formats, field by field: what decoding a word of each format reads, and what each encoder
writes (30_encoding.md R60 to R64, R69). -/

namespace Sys2Proof

variable {w : Widths}

/-! ### Formats -/

/-- A word of a format is read by that format. -/
theorem decode_format (x : BitVec 3) (f : Format) (n : Nat) :
    n < 2 ^ f.width w → decode w x ⟨f, n⟩ =
      match f with
      | .control => decodeControl n
      | .inputToken => .ok (decodeToken x (BitVec.ofNat 9 n))
      | .startPorts => decodeStart w (BitVec.ofNat (16 + w.nvW) n)
      | .packedReal => .ok (decodePackedReal (BitVec.ofNat 48 n))
      | .recTokens => decodeRec (BitVec.ofNat 54 n)
      | .outputToken => decodeOutputToken w (BitVec.ofNat (64 + w.reactorW + w.nvW + 13) n)
      | .other _ => .error .noFormat := by
  intro h
  exact (if_neg (show ¬2 ^ f.width w ≤ n by omega)).trans (by cases f <;> rfl)

theorem ofNat_toNat_cast {u v : Nat} (x : BitVec u) (h : u = v) :
    BitVec.ofNat v x.toNat = x.cast h := by
  subst h; simp

/-! ### Input tokens -/

theorem byteToken_eos (b : Byte) : (byteToken b).getLsbD 8 = false := by revert b; decide

theorem byteToken_data (b : Byte) : (byteToken b).extractLsb' 0 8 = b := by revert b; decide

theorem decodeToken_byte (x : BitVec 3) (b : Byte) :
    decodeToken x (byteToken b) = if x < 5 then .byteStore b else .byteComplete b := by
  unfold decodeToken
  rw [byteToken_eos, byteToken_data]
  simp

theorem decodeToken_eos (x : BitVec 3) : decodeToken x eosToken = .eos := if_pos (by decide)

/-! ### REC -/

theorem recToken_recBits (p : PackedReal) (i : Nat) (hi : i < 6) :
    recToken (recBits p) i = byteToken (literalByte p i) := by
  apply BitVec.eq_of_getLsbD_eq
  intro k hk
  unfold recToken recBits byteToken
  simp only [BitVec.getLsbD_extractLsb', BitVec.getLsbD_append, BitVec.getLsbD_zero]
  rcases (show i = 0 ∨ i = 1 ∨ i = 2 ∨ i = 3 ∨ i = 4 ∨ i = 5 by omega) with
    rfl | rfl | rfl | rfl | rfl | rfl <;> grind

theorem literalByte_append (p : PackedReal) :
    literalByte p 0 ++ literalByte p 1 ++ literalByte p 2 ++ literalByte p 3 ++ literalByte p 4 ++
      literalByte p 5 = p := by
  apply BitVec.eq_of_getLsbD_eq
  intro k hk
  unfold literalByte
  simp only [BitVec.getLsbD_extractLsb', BitVec.getLsbD_append]
  grind

/-! ### START with its operands -/

section StartPorts

variable (nv : BitVec w.nvW) (iv : BitVec 8)

/-- The word of START fits its format. -/
theorem startBits_lt : (nv ++ iv ++ 0#8).toNat < 2 ^ (16 + w.nvW) :=
  lt_of_lt_of_eq (nv ++ iv ++ 0#8).isLt (congrArg (2 ^ ·) (show w.nvW + 8 + 8 = 16 + w.nvW by omega))

theorem startBits_condition : (nv ++ iv ++ 0#8).extractLsb' 0 8 = 0 := by
  apply BitVec.eq_of_getLsbD_eq
  intro k hk
  rw [BitVec.getLsbD_extractLsb', BitVec.getLsbD_append]
  simp [hk]

theorem startBits_interval : (nv ++ iv ++ 0#8).extractLsb' 8 8 = iv := by
  apply BitVec.eq_of_getLsbD_eq
  intro k hk
  rw [BitVec.getLsbD_extractLsb', BitVec.getLsbD_append, BitVec.getLsbD_append]
  simp [hk]

theorem startBits_nodivars : (nv ++ iv ++ 0#8).extractLsb' 16 w.nvW = nv := by
  apply BitVec.eq_of_getLsbD_eq
  intro k hk
  rw [BitVec.getLsbD_extractLsb', BitVec.getLsbD_append, BitVec.getLsbD_append]
  simp [hk, show 16 + k - 8 - 8 = k by omega, show ¬16 + k - 8 < 8 by omega]
  omega

end StartPorts

/-! ### Output tokens -/

section OutputToken

variable (a b c d e : Bool) (r : BitVec w.reactorW) (t : BitVec 8) (l : BitVec w.nvW)
  (x : Binary64)

/-- The word of an output token fits its format. -/
theorem outputTokenBits_lt :
    (outputTokenBits w a b c d e r t l x).toNat < 2 ^ (64 + w.reactorW + w.nvW + 13) :=
  lt_of_lt_of_eq (outputTokenBits w a b c d e r t l x).isLt
    (congrArg (2 ^ ·) (show 1 + 1 + 1 + 1 + 1 + w.reactorW + 8 + w.nvW + 64 =
      64 + w.reactorW + w.nvW + 13 by omega))

theorem outputTokenBits_data : (outputTokenBits w a b c d e r t l x).extractLsb' 0 64 = x := by
  apply BitVec.eq_of_getLsbD_eq
  intro k hk
  unfold outputTokenBits
  simp only [BitVec.getLsbD_extractLsb', BitVec.getLsbD_append]
  simp [hk]

theorem outputTokenBits_col :
    (outputTokenBits w a b c d e r t l x).extractLsb' 64 w.nvW = l := by
  apply BitVec.eq_of_getLsbD_eq
  intro k hk
  unfold outputTokenBits
  simp only [BitVec.getLsbD_extractLsb', BitVec.getLsbD_append]
  simp [hk]

theorem outputTokenBits_ticks :
    (outputTokenBits w a b c d e r t l x).extractLsb' (64 + w.nvW) 8 = t := by
  apply BitVec.eq_of_getLsbD_eq
  intro k hk
  unfold outputTokenBits
  simp only [BitVec.getLsbD_extractLsb', BitVec.getLsbD_append]
  simp [hk, show ¬64 + w.nvW + k < 64 by omega,
    show ¬64 + w.nvW + k - 64 < w.nvW by omega,
    show 64 + w.nvW + k - 64 - w.nvW = k by omega]

theorem outputTokenBits_reactor :
    (outputTokenBits w a b c d e r t l x).extractLsb' (72 + w.nvW) w.reactorW = r := by
  apply BitVec.eq_of_getLsbD_eq
  intro k hk
  unfold outputTokenBits
  simp only [BitVec.getLsbD_extractLsb', BitVec.getLsbD_append]
  simp [hk, show ¬72 + w.nvW + k < 64 by omega,
    show ¬72 + w.nvW + k - 64 < w.nvW by omega,
    show ¬72 + w.nvW + k - 64 - w.nvW < 8 by omega,
    show 72 + w.nvW + k - 64 - w.nvW - 8 = k by omega]

theorem outputTokenBits_flag (k : Nat) (hk : k < 5) :
    (outputTokenBits w a b c d e r t l x).getLsbD (72 + w.nvW + w.reactorW + k) =
      if k = 0 then e else if k = 1 then d else if k = 2 then c else if k = 3 then b else a := by
  unfold outputTokenBits
  simp only [BitVec.getLsbD_append, BitVec.getLsbD_ofBool]
  generalize w.nvW = n at *
  generalize w.reactorW = m at *
  simp only [show ¬72 + n + m + k < 64 by omega, show ¬72 + n + m + k - 64 < n by omega,
    show ¬72 + n + m + k - 64 - n < 8 by omega, show 72 + n + m + k - 64 - n - 8 = m + k by omega,
    show ¬m + k < m by omega, if_false, show m + k - m = k by omega]
  rcases (show k = 0 ∨ k = 1 ∨ k = 2 ∨ k = 3 ∨ k = 4 by omega) with
    rfl | rfl | rfl | rfl | rfl <;> simp

end OutputToken

end Sys2Proof
end

