-- ==== Sys2Proof/Laws/Fields.lean ====
section
/-! SUPPORT. The PackedReal fields and the packed result, bit by bit: each definition is unfolded once, here. -/

namespace Sys2Proof

theorem exponentField_getLsbD (p : PackedReal) (k : Nat) :
    (exponentField p).getLsbD k = (decide (k < 8) && p.getLsbD (40 + k)) := by
  simp [exponentField]

theorem mantissaField_getLsbD (p : PackedReal) (k : Nat) :
    (mantissaField p).getLsbD k =
      if k < 8 then p.getLsbD (32 + k)
      else if k < 16 then p.getLsbD (24 + (k - 8))
      else if k < 24 then p.getLsbD (16 + (k - 16))
      else if k < 32 then p.getLsbD (8 + (k - 24))
      else decide (k - 32 < 7) && p.getLsbD (k - 32) := by
  unfold mantissaField
  simp only [BitVec.getLsbD_append, BitVec.getLsbD_extractLsb']
  grind

theorem assembleReal_getLsbD (e : BitVec 8) (s : Bool) (m : BitVec 39) (k : Nat) :
    (assembleReal e s m).getLsbD k =
      if k < 7 then m.getLsbD (32 + k)
      else if k = 7 then s
      else if k < 16 then m.getLsbD (24 + (k - 8))
      else if k < 24 then m.getLsbD (16 + (k - 16))
      else if k < 32 then m.getLsbD (8 + (k - 24))
      else if k < 40 then m.getLsbD (k - 32)
      else e.getLsbD (k - 40) := by
  unfold assembleReal
  simp only [BitVec.getLsbD_append, BitVec.getLsbD_extractLsb', BitVec.getLsbD_ofBool]
  grind

@[simp] theorem exponentField_assembleReal (e : BitVec 8) (s : Bool) (m : BitVec 39) :
    exponentField (assembleReal e s m) = e := by
  apply BitVec.eq_of_getLsbD_eq
  intro k hk
  rw [exponentField_getLsbD, assembleReal_getLsbD]
  grind

@[simp] theorem signField_assembleReal (e : BitVec 8) (s : Bool) (m : BitVec 39) :
    signField (assembleReal e s m) = s := by
  unfold signField
  rw [assembleReal_getLsbD]
  simp

@[simp] theorem mantissaField_assembleReal (e : BitVec 8) (s : Bool) (m : BitVec 39) :
    mantissaField (assembleReal e s m) = m := by
  apply BitVec.eq_of_getLsbD_eq
  intro k hk
  simp only [mantissaField_getLsbD, assembleReal_getLsbD]
  grind

@[simp] theorem assembleReal_fields (p : PackedReal) :
    assembleReal (exponentField p) (signField p) (mantissaField p) = p := by
  apply BitVec.eq_of_getLsbD_eq
  intro k hk
  unfold signField
  simp only [mantissaField_getLsbD, assembleReal_getLsbD, exponentField_getLsbD]
  grind

theorem assembleReal_eq_zero (e : BitVec 8) (s : Bool) (m : BitVec 39) :
    assembleReal e s m = 0 ↔ e = 0 ∧ s = false ∧ m = 0 := by
  constructor
  · intro h
    have h1 := exponentField_assembleReal e s m
    have h2 := signField_assembleReal e s m
    have h3 := mantissaField_assembleReal e s m
    rw [h] at h1 h2 h3
    exact ⟨h1.symm, h2.symm, h3.symm⟩
  · rintro ⟨rfl, rfl, rfl⟩
    decide

namespace Machine

theorem packBinary64_getLsbD (s : Bool) (x : BitVec 11) (m : BitVec 39) (k : Nat) :
    (packBinary64 s x m).getLsbD k =
      if k < 13 then false
      else if k < 52 then m.getLsbD (k - 13)
      else if k < 63 then x.getLsbD (k - 52)
      else decide (k - 63 = 0) && s := by
  unfold packBinary64
  simp only [BitVec.getLsbD_append, BitVec.getLsbD_ofBool, BitVec.getLsbD_zero]
  grind

@[simp] theorem zeroCheck_iff (p : PackedReal) : zeroCheck p = true ↔ p = 0 := by
  simp [zeroCheck]

@[simp] theorem decode48_zero : decode48 0 = 0 := rfl

theorem decode48_of_ne {p : PackedReal} (h : p ≠ 0) :
    decode48 p = packBinary64 (signField p) (biasOffset (exponentField p)) (mantissaField p) :=
  if_neg (by simpa using h)

theorem decode48_getLsbD_of_ne {p : PackedReal} (h : p ≠ 0) (k : Nat) :
    (decode48 p).getLsbD k =
      if k < 13 then false
      else if k < 52 then (mantissaField p).getLsbD (k - 13)
      else if k < 63 then (biasOffset (exponentField p)).getLsbD (k - 52)
      else decide (k - 63 = 0) && p.getLsbD 7 := by
  rw [decode48_of_ne h, packBinary64_getLsbD]
  rfl

end Machine

end Sys2Proof
end

