-- ==== Sys2Proof/Laws/PerInstr.lean ====
section
/-! SUPPORT. A statement per instruction: at all widths, the encoder's bits fit the width of the format it names, so
that no set bit of an encoding falls outside the word (30_encoding.md R68). -/

namespace Sys2Proof.Laws

/-- The bits the encoder writes for `i` lie inside its format's width. -/
def EncodeFits.Statement (i : Instr) : Prop := ∀ w : Widths, i.bits w < 2 ^ i.format.width w

theorem EncodeFits.decode48Zero : EncodeFits.Statement .decode48Zero := fun _ =>
  show 0 < 2 ^ 48 by decide

theorem EncodeFits.decode48Normal (e : BitVec 8) (s : Bool) (m : BitVec 39) :
    EncodeFits.Statement (.decode48Normal e s m) := fun _ => (assembleReal e s m).isLt

theorem EncodeFits.byteStore (b : Byte) : EncodeFits.Statement (.byteStore b) := fun _ =>
  (byteToken b).isLt

theorem EncodeFits.byteComplete (b : Byte) : EncodeFits.Statement (.byteComplete b) := fun _ =>
  (byteToken b).isLt

theorem EncodeFits.eos : EncodeFits.Statement .eos := fun _ => eosToken.isLt

theorem EncodeFits.recLine (p : PackedReal) : EncodeFits.Statement (.recLine p) := fun _ =>
  (recBits p).isLt

theorem EncodeFits.start (nodivars : Nat) (interval : BitVec 8) :
    EncodeFits.Statement (.start nodivars interval) := fun _ => startBits_lt _ _

theorem EncodeFits.pop : EncodeFits.Statement .pop := fun _ => show 3 < 2 ^ 3 by decide

theorem EncodeFits.reset : EncodeFits.Statement .reset := fun _ => show 1 < 2 ^ 3 by decide

theorem EncodeFits.value (sor eor : Bool) (reactor : Nat) (ticks : BitVec 8) (col : Nat)
    (data : Binary64) : EncodeFits.Statement (.value sor eor reactor ticks col data) := fun _ =>
  outputTokenBits_lt _ _ _ _ _ _ _ _ _

theorem EncodeFits.endTok (truncRecord truncRow : Bool) (reactor : Nat) (ticks : BitVec 8)
    (col : Nat) : EncodeFits.Statement (.endTok truncRecord truncRow reactor ticks col) := fun _ =>
  outputTokenBits_lt _ _ _ _ _ _ _ _ _

end Sys2Proof.Laws
end

