-- ==== Sys2Proof/Laws/Stream.lean ====
section
/-! SUPPORT. The functional view of the input (20_memory.md R54) and the function Out (41_stream.md R109), one byte at a
time, and the machine's counters read against them. -/

namespace Sys2Proof.Machine

variable {w : Widths}

/-- Quotient and remainder of a successor. -/
theorem div_succ_mod {n m : Nat} (hm : 0 < m) :
    (n % m = m - 1 → (n + 1) % m = 0 ∧ (n + 1) / m = n / m + 1) ∧
    (n % m ≠ m - 1 → (n + 1) % m = n % m + 1 ∧ (n + 1) / m = n / m) := by
  have h1 := Nat.div_add_mod n m
  have h2 := Nat.mod_lt n hm
  constructor
  · intro h
    have e : n + 1 = m * (n / m + 1) := by rw [Nat.mul_add]; omega
    rw [e]
    exact ⟨Nat.mul_mod_right _ _, Nat.mul_div_cancel_left _ hm⟩
  · intro h
    have h3 : n % m + 1 < m := by omega
    have e : n + 1 = (n % m + 1) + m * (n / m) := by omega
    constructor
    · conv_lhs => rw [e]
      rw [Nat.add_mul_mod_self_left, Nat.mod_eq_of_lt h3]
    · conv_lhs => rw [e]
      rw [Nat.add_mul_div_left _ _ hm, Nat.div_eq_of_lt h3]; omega

theorem toNat_succ {n : Nat} (x : BitVec n) (h : x.toNat + 1 < 2 ^ n) :
    (x + 1#n).toNat = x.toNat + 1 := by
  rw [BitVec.toNat_add, BitVec.toNat_ofNat, Nat.add_mod, Nat.mod_mod, ← Nat.add_mod]
  exact Nat.mod_eq_of_lt h

theorem ofNat_succ (m n : Nat) : BitVec.ofNat m n + 1#m = BitVec.ofNat m (n + 1) := by
  rw [BitVec.ofNat_add]

theorem bidx_lt_iff (x : BitVec 3) : x < 5 ↔ x.toNat < 5 := by
  rw [BitVec.lt_def]; rfl

theorem toNat_of_eq_five {x : BitVec 3} (h : x = 5) : x.toNat = 5 := by subst h; rfl

theorem getD_snoc_lt {α : Type} (l : List α) (b d : α) (i : Nat) (h : i < l.length) :
    (l ++ [b]).getD i d = l.getD i d := by
  simp [List.getD_eq_getElem?_getD, List.getElem?_append_left h]

theorem getD_snoc_eq {α : Type} (l : List α) (b d : α) : (l ++ [b]).getD l.length d = b := by
  simp [List.getD_eq_getElem?_getD]

/-! ### One more byte of the source -/

theorem recordCount_snoc_store (src : List Byte) (b : Byte) (h : src.length % 6 ≠ 5) :
    recordCount (src ++ [b]) = recordCount src := by
  simp [recordCount, Config.recBytes,
    ((div_succ_mod (n := src.length) (m := 6) (by omega)).2 (by omega)).2]

theorem recordCount_snoc_complete (src : List Byte) (b : Byte) (h : src.length % 6 = 5) :
    recordCount (src ++ [b]) = recordCount src + 1 := by
  simp [recordCount, Config.recBytes,
    ((div_succ_mod (n := src.length) (m := 6) (by omega)).1 (by omega)).2]

theorem recordAt_snoc (src : List Byte) (b : Byte) (k : Nat) (h : k < recordCount src) :
    recordAt (src ++ [b]) k = recordAt src k := by
  unfold recordCount Config.recBytes at h
  unfold recordAt
  have := Nat.div_mul_le_self src.length 6
  rw [getD_snoc_lt, getD_snoc_lt, getD_snoc_lt, getD_snoc_lt, getD_snoc_lt, getD_snoc_lt] <;> omega

theorem outValue_snoc (nv : BitVec w.nvW) (iv : BitVec 8) (src : List Byte) (b : Byte) (k : Nat)
    (h : k < recordCount src) : outValue nv iv (src ++ [b]) k = outValue nv iv src k := by
  unfold outValue
  rw [recordAt_snoc _ _ _ h]

/-- A byte that completes no record adds no value. -/
theorem outValues_snoc_store (nv : BitVec w.nvW) (iv : BitVec 8) (src : List Byte) (b : Byte)
    (h : src.length % 6 ≠ 5) : outValues nv iv (src ++ [b]) = outValues nv iv src := by
  unfold outValues
  rw [recordCount_snoc_store src b h]
  apply List.map_congr_left
  intro k hk
  exact outValue_snoc _ _ _ _ _ (List.mem_range.mp hk)

/-- A byte that completes a record adds the value of that record. -/
theorem outValues_snoc_complete (nv : BitVec w.nvW) (iv : BitVec 8) (src : List Byte) (b : Byte)
    (h : src.length % 6 = 5) :
    outValues nv iv (src ++ [b]) =
      outValues nv iv src ++ [outValue nv iv (src ++ [b]) (recordCount src)] := by
  unfold outValues
  rw [recordCount_snoc_complete src b h, List.range_succ, List.map_append]
  congr 1
  apply List.map_congr_left
  intro k hk
  exact outValue_snoc _ _ _ _ _ (List.mem_range.mp hk)

/-! ### The machine's counters against the source -/

theorem rowsPerReactor_of_legal {iv : BitVec 8} (h : legalInterval iv = true) :
    ∃ d, 1440 / iv.toNat = d ∧ rowsPerReactor iv = d + 2 ∧ d ≤ 144 := by
  rcases (legalInterval_iff iv).1 h with rfl | rfl | rfl
  · exact ⟨144, by decide⟩
  · exact ⟨96, by decide⟩
  · exact ⟨48, by decide⟩

/-- `Counts` reads only the configuration, the counters, the assembly register and the bytes taken. -/
theorem Block.Counts.congr {s t : Block w} (h : s.Counts) (h1 : t.cfgNv = s.cfgNv)
    (h2 : t.cfgIv = s.cfgIv) (h3 : t.bidx = s.bidx) (h4 : t.sr = s.sr) (h5 : t.col = s.col)
    (h6 : t.rowsPrinted = s.rowsPrinted) (h7 : t.reactor = s.reactor)
    (h8 : t.numbersRead = s.numbersRead) (h9 : t.taken = s.taken) : t.Counts := by
  constructor <;> simp only [h1, h2, h3, h4, h5, h6, h7, h8, h9]
  · exact h.nv_legal
  · exact h.iv_legal
  · exact h.bidx_eq
  · exact h.sr_eq
  · exact h.col_eq
  · exact h.rows_eq
  · exact h.reactor_eq
  · exact h.read_eq

theorem lastColumn_iff {s : Block w} (h : s.Counts) :
    s.lastColumn = true ↔ s.col.toNat = s.cfgNv.toNat - 1 := by
  have h1 := h.nv_legal
  have h2 := s.cfgNv.isLt
  unfold Block.lastColumn
  rw [beq_iff_eq, ← BitVec.toNat_inj, BitVec.toNat_sub]
  have e : (2 ^ w.nvW - (1#w.nvW).toNat + s.cfgNv.toNat) % 2 ^ w.nvW =
      s.cfgNv.toNat - 1 := by
    have hw : 1 < 2 ^ w.nvW := by omega
    rw [BitVec.toNat_ofNat, Nat.mod_eq_of_lt hw,
      show 2 ^ w.nvW - 1 + s.cfgNv.toNat = 2 ^ w.nvW + (s.cfgNv.toNat - 1) by omega,
      Nat.add_mod_left, Nat.mod_eq_of_lt (by omega)]
  exact ⟨fun g => g.trans e, fun g => g.trans e.symm⟩

/-- The record a sixth byte completes is the next record of the source. -/
theorem record_eq_recordAt {s : Block w} (b : Byte) (h : s.Counts) (hb : s.bidx = 5) :
    s.record b = recordAt (s.taken ++ [b]) (recordCount s.taken) := by
  have hb' := toNat_of_eq_five hb
  have hl := h.bidx_eq
  unfold Config.recBytes at hl
  have hd := Nat.div_add_mod s.taken.length 6
  have g : ∀ i : Fin 5,
      s.sr[i] = (s.taken ++ [b]).getD (6 * recordCount s.taken + i.val) 0 := by
    intro i
    rw [h.sr_eq i (by omega), getD_snoc_lt]
    · rfl
    · unfold recordCount Config.recBytes; omega
  have g0 := g 0
  have g1 := g 1
  have g2 := g 2
  have g3 := g 3
  have g4 := g 4
  simp only [Fin.getElem_fin] at g0 g1 g2 g3 g4
  unfold Block.record recordAt
  rw [show 6 * recordCount s.taken + 5 = s.taken.length by
      unfold recordCount Config.recBytes; omega,
    getD_snoc_eq, show s.sr[0] = _ from g0, show s.sr[1] = _ from g1, show s.sr[2] = _ from g2,
    show s.sr[3] = _ from g3, show s.sr[4] = _ from g4]
  rfl

/-- The token BYTE.COMPLETE pushes is the one Out gives the record. -/
theorem valueToken_eq_outValue {s : Block w} (b : Byte) (h : s.Counts) (hb : s.bidx = 5) :
    valueToken (s.record b) s =
      outValue s.cfgNv s.cfgIv (s.taken ++ [b]) (recordCount s.taken) := by
  unfold valueToken outValue
  rw [record_eq_recordAt b h hb]
  have h1 : s.col = BitVec.ofNat _ (recordCount s.taken % s.cfgNv.toNat) := by
    rw [← h.col_eq]; simp
  have h2 : s.rowsPrinted = rowTicks s.cfgIv (recordCount s.taken / s.cfgNv.toNat) := by
    unfold rowTicks; rw [← h.rows_eq]; simp
  congr 1
  · unfold Block.firstColumn
    rw [Bool.eq_iff_iff, beq_iff_eq, beq_iff_eq, ← h.col_eq, ← BitVec.toNat_inj]; simp
  · rw [Bool.eq_iff_iff, lastColumn_iff h, beq_iff_eq, ← h.col_eq]
  · exact h.reactor_eq

/-- The token EOS pushes is the END token of Out. -/
theorem endToken_eq_outEnd {s : Block w} (h : s.Counts) :
    endToken s = outEnd s.cfgNv s.cfgIv s.taken := by
  have h1 : s.col = BitVec.ofNat _ (recordCount s.taken % s.cfgNv.toNat) := by
    rw [← h.col_eq]; simp
  have h2 : s.rowsPrinted = rowTicks s.cfgIv (recordCount s.taken / s.cfgNv.toNat) := by
    unfold rowTicks; rw [← h.rows_eq]; simp
  unfold endToken outEnd
  congr 1
  · unfold Block.recordOpen
    rw [Bool.eq_iff_iff, bne_iff_ne, bne_iff_ne, ← h.bidx_eq, ne_eq, ne_eq, ← BitVec.toNat_inj]
    simp
  · unfold Block.rowOpen
    rw [Bool.eq_iff_iff, bne_iff_ne, bne_iff_ne, ← h.col_eq, ne_eq, ne_eq, ← BitVec.toNat_inj]
    simp
  · exact h.reactor_eq

/-! ### Which row a token is -/

theorem decodeToken_row (x : BitVec 3) (t : TokenBits) :
    isOperation (decodeToken x t) = true ∧ (decodeToken x t).rowAt x = true := by
  unfold decodeToken
  split
  · exact ⟨rfl, rfl⟩
  · split
    · exact ⟨rfl, by unfold Instr.rowAt; simpa using ‹x < 5›⟩
    · exact ⟨rfl, by unfold Instr.rowAt; simpa using BitVec.not_lt.mp ‹_›⟩

/-- What is decoded is a row at that byte index, and the byte index never turns an operation into a
token format or back. -/
theorem decode_row {x : BitVec 3} {c : EncWord} {i : Instr} (h : decode w x c = .ok i) :
    i.rowAt x = true ∧ ∃ j, decode w 0 c = .ok j ∧ isOperation j = isOperation i := by
  unfold decode at h ⊢
  split at h
  · cases h
  · rename_i hlt
    simp only [if_neg hlt]
    split at h
    · refine ⟨?_, _, h, rfl⟩
      unfold decodeControl at h
      split at h
      · cases h; rfl
      · split at h
        · cases h; rfl
        · split at h <;> cases h
          rfl
    · cases h
      exact ⟨(decodeToken_row _ _).2, _, rfl, by
        rw [(decodeToken_row _ _).1, (decodeToken_row _ _).1]⟩
    · refine ⟨?_, _, h, rfl⟩
      unfold decodeStart at h
      split at h <;> cases h
      rfl
    · cases h
      refine ⟨?_, _, rfl, rfl⟩
      unfold decodePackedReal
      split <;> rfl
    · refine ⟨?_, _, h, rfl⟩
      unfold decodeRec at h
      split at h <;> cases h
      rfl
    · refine ⟨?_, _, h, rfl⟩
      unfold decodeOutputToken at h
      simp only at h
      split at h <;> split at h <;> cases h <;> rfl
    · cases h

/-- A word the spec knows decodes at every byte index. -/
theorem decode_of_known {x : BitVec 3} {c : EncWord} (h : (Stimulus.word (w := w) c).known = true) :
    ∃ i, decode w x c = .ok i ∧ isOperation i = true ∧ i.rowAt x = true := by
  have h' : ∃ j, decode w 0 c = .ok j ∧ isOperation j = true := by
    unfold Stimulus.known at h
    simp only at h
    split at h
    · exact ⟨_, ‹_›, h⟩
    · cases h
  obtain ⟨j, hj, ho⟩ := h'
  have hx : ∃ i, decode w x c = .ok i := by
    unfold decode at hj ⊢
    split at hj
    · cases hj
    · rename_i hlt
      simp only [if_neg hlt]
      split at hj
      all_goals first | exact ⟨_, hj⟩ | exact ⟨_, rfl⟩
  obtain ⟨i, hi⟩ := hx
  obtain ⟨hr, k, hk, hko⟩ := decode_row hi
  rw [hj] at hk
  cases hk
  exact ⟨i, hi, by rw [← hko]; exact ho, hr⟩

end Sys2Proof.Machine
end

