-- ==== Sys2Proof/Laws/Run.lean ====
section
/-! SUPPORT. What each shared operation does to the invariant of a run (10_state.md R32; 41_stream.md R109): one lemma
per operation, for the proofs about exec and step. -/

namespace Sys2Proof.Machine

variable {w : Widths}

/-! ### The counters -/

/-- A byte that completes no record keeps the counters true (R102). -/
theorem counts_storeByte {s : Block w} (b : Byte) (h : s.Counts) (hb : s.bidx < 5) :
    (storeByte b (takeByte b s)).Counts := by
  have hb' := (bidx_lt_iff _).1 hb
  have hl := h.bidx_eq
  have hd := Nat.div_add_mod s.taken.length 6
  unfold Config.recBytes at hl
  have hm := (div_succ_mod (n := s.taken.length) (m := 6) (by omega)).2 (by omega)
  have hrc := recordCount_snoc_store s.taken b (by omega)
  have hbn : (s.bidx + 1).toNat = s.bidx.toNat + 1 := toNat_succ _ (by omega)
  constructor
  · exact h.nv_legal
  · exact h.iv_legal
  · simp only [storeByte_bidx, takeByte_bidx, hbn, storeByte_taken, takeByte_taken, Config.recBytes,
      List.length_append, List.length_singleton, hm.1, hl]
  · intro i hi
    simp only [storeByte_bidx, takeByte_bidx, hbn] at hi
    simp only [storeByte_sr, storeByte_taken, takeByte_taken, takeByte_sr, takeByte_bidx, hrc]
    by_cases hik : i.val = s.bidx.toNat
    · rw [show Config.recBytes * recordCount s.taken + i.val = s.taken.length by
        unfold recordCount Config.recBytes; omega, getD_snoc_eq]
      simp [hik]
    · rw [getD_snoc_lt _ _ _ _ (by unfold recordCount Config.recBytes; omega),
        ← h.sr_eq i (by omega)]
      simp [Vector.getElem_setIfInBounds]
      intro h; omega
  · simpa [hrc] using h.col_eq
  · simpa [hrc] using h.rows_eq
  · simpa [hrc] using h.reactor_eq
  · simpa [hrc] using h.read_eq

/-- A byte that completes a record keeps the counters true, and pushes the value Out gives (R103, R109). -/
theorem counts_completeRecord {s t : Block w} (b : Byte) (h : s.Counts) (hb : s.bidx = 5)
    (he : completeRecord b (takeByte b s) = .next t) :
    t.Counts ∧ t.phase = s.phase ∧ t.cfgNv = s.cfgNv ∧ t.cfgIv = s.cfgIv ∧ t.err = s.err ∧
    t.stim = s.stim ∧ t.taken = s.taken ++ [b] ∧ t.delivered = s.delivered ∧ t.oValid = true ∧
    t.oTok = outValue s.cfgNv s.cfgIv (s.taken ++ [b]) (recordCount s.taken) := by
  have hb' := toNat_of_eq_five hb
  have hl := h.bidx_eq
  unfold Config.recBytes at hl
  have hm := (div_succ_mod (n := s.taken.length) (m := 6) (by omega)).1 (by omega)
  have hrc := recordCount_snoc_complete s.taken b (by omega)
  have hn := div_succ_mod (n := recordCount s.taken) (m := s.cfgNv.toNat) h.nv_legal
  have hlast : s.lastColumn = true ↔
      recordCount s.taken % s.cfgNv.toNat = s.cfgNv.toNat - 1 := by
    rw [lastColumn_iff h, h.col_eq]
  obtain ⟨d0, hd0, hper, h144⟩ := rowsPerReactor_of_legal h.iv_legal
  have hr := div_succ_mod (n := recordCount s.taken / s.cfgNv.toNat)
    (m := rowsPerReactor s.cfgIv) (by omega)
  have hvt := valueToken_eq_outValue b h hb
  have hrd : s.numbersRead + 1 = BitVec.ofNat w.numreadW (recordCount s.taken + 1) := by
    rw [h.read_eq]; exact ofNat_succ _ _
  rcases completeRecord_cases he with ⟨hlc, rfl⟩ | ⟨hlc, dpd, hd, hcase⟩
  · have hne : recordCount s.taken % s.cfgNv.toNat ≠ s.cfgNv.toNat - 1 := fun hh => by
      rw [show (takeByte b s).lastColumn = true from hlast.2 hh] at hlc
      cases hlc
    obtain ⟨e1, e2⟩ := hn.2 hne
    refine ⟨⟨h.nv_legal, h.iv_legal, ?_, ?_, ?_, ?_, ?_, ?_⟩,
      rfl, rfl, rfl, rfl, rfl, rfl, rfl, rfl, hvt⟩
    · simp [Config.recBytes, hm.1]
    · intro i hi; simp at hi
    · show (s.col + 1#_).toNat = recordCount (s.taken ++ [b]) % s.cfgNv.toNat
      rw [hrc, e1, ← h.col_eq, toNat_succ]
      have a1 := s.cfgNv.isLt
      have a2 := h.col_eq
      have a3 := Nat.mod_lt (recordCount s.taken) h.nv_legal
      rw [← a2] at a3 hne
      omega
    · show _ = recordCount (s.taken ++ [b]) / s.cfgNv.toNat % _
      rw [hrc, e2]; exact h.rows_eq
    · show _ = rowReactor _ _ (recordCount (s.taken ++ [b]) / s.cfgNv.toNat)
      rw [hrc, e2]; exact h.reactor_eq
    · show s.numbersRead + 1 = BitVec.ofNat _ (recordCount (s.taken ++ [b]))
      rw [hrc]; exact hrd
  · obtain ⟨e1, e2⟩ := hn.1 (hlast.1 hlc)
    have hd' : dpd = d0 := by
      rw [show dataPerDay (takeByte b s).cfgIv = dataPerDay s.cfgIv from rfl,
        dataPerDay_of_legal h.iv_legal] at hd
      cases hd; exact hd0
    have hrows := h.rows_eq
    have hrlt := Nat.mod_lt (recordCount s.taken / s.cfgNv.toNat)
      (show rowsPerReactor s.cfgIv > 0 by omega)
    rcases hcase with ⟨hgt, rfl⟩ | ⟨hle, rfl⟩
    · have hgt' : dpd < s.rowsPrinted.toNat := hgt
      obtain ⟨f1, f2⟩ := hr.1 (by omega)
      refine ⟨⟨h.nv_legal, h.iv_legal, ?_, ?_, ?_, ?_, ?_, ?_⟩,
        rfl, rfl, rfl, rfl, rfl, rfl, rfl, rfl, hvt⟩
      · simp [Config.recBytes, hm.1]
      · intro i hi; simp at hi
      · show (0#_).toNat = recordCount (s.taken ++ [b]) % s.cfgNv.toNat
        rw [hrc, e1]; simp
      · show (0#8).toNat =
          recordCount (s.taken ++ [b]) / s.cfgNv.toNat % rowsPerReactor s.cfgIv
        rw [hrc, e2, f1]; rfl
      · show s.reactor + 1 = rowReactor w s.cfgIv (recordCount (s.taken ++ [b]) / s.cfgNv.toNat)
        rw [hrc, e2, h.reactor_eq]
        unfold rowReactor
        rw [f2]; exact ofNat_succ _ _
      · show s.numbersRead + 1 = BitVec.ofNat _ (recordCount (s.taken ++ [b]))
        rw [hrc]; exact hrd
    · have hle' : s.rowsPrinted.toNat ≤ dpd := hle
      obtain ⟨f1, f2⟩ := hr.2 (by omega)
      refine ⟨⟨h.nv_legal, h.iv_legal, ?_, ?_, ?_, ?_, ?_, ?_⟩,
        rfl, rfl, rfl, rfl, rfl, rfl, rfl, rfl, hvt⟩
      · simp [Config.recBytes, hm.1]
      · intro i hi; simp at hi
      · show (0#_).toNat = recordCount (s.taken ++ [b]) % s.cfgNv.toNat
        rw [hrc, e1]; simp
      · show (s.rowsPrinted + 1#8).toNat =
          recordCount (s.taken ++ [b]) / s.cfgNv.toNat % rowsPerReactor s.cfgIv
        rw [hrc, e2, f1, toNat_succ] <;> omega
      · show s.reactor = rowReactor w s.cfgIv (recordCount (s.taken ++ [b]) / s.cfgNv.toNat)
        rw [hrc, e2, h.reactor_eq]
        unfold rowReactor
        rw [f2]
      · show s.numbersRead + 1 = BitVec.ofNat _ (recordCount (s.taken ++ [b]))
        rw [hrc]; exact hrd

/-- With a legal interval a record completes. -/
theorem completeRecord_of_legal {s : Block w} (b : Byte) (h : legalInterval s.cfgIv = true) :
    ∃ t, completeRecord b s = .next t := by
  unfold completeRecord advanceColumn
  split
  · rw [rowComplete_of_legal (by exact h)]
    split <;> exact ⟨_, rfl⟩
  · exact ⟨_, rfl⟩

/-! ### What a transfer changes -/

/-- What the counters can become when a byte is transferred, in any state (R102, R103, R105). -/
theorem transferByte_counters {b : Byte} {s t : Block w} (h : transferByte b s = .next t) :
    t.phase = s.phase ∧ t.cfgNv = s.cfgNv ∧ t.cfgIv = s.cfgIv ∧ t.err = s.err ∧
    ((s.bidx.toNat < 5 ∧ t.bidx.toNat = s.bidx.toNat + 1 ∧ t.numbersRead = s.numbersRead ∧
        t.reactor = s.reactor ∧ t.rowsPrinted = s.rowsPrinted) ∨
     (s.bidx.toNat = 5 ∧ t.bidx.toNat = 0 ∧ t.numbersRead = s.numbersRead + 1 ∧
        ((t.reactor = s.reactor ∧ t.rowsPrinted = s.rowsPrinted) ∨
         (t.reactor = s.reactor ∧ t.rowsPrinted = s.rowsPrinted + 1) ∨
         (t.reactor = s.reactor + 1 ∧ t.rowsPrinted = 0)))) := by
  have key : ∀ u : Block w, acceptByte b u = .next t →
      t.phase = u.phase ∧ t.cfgNv = u.cfgNv ∧ t.cfgIv = u.cfgIv ∧ t.err = u.err ∧
      ((u.bidx.toNat < 5 ∧ t.bidx.toNat = u.bidx.toNat + 1 ∧ t.numbersRead = u.numbersRead ∧
          t.reactor = u.reactor ∧ t.rowsPrinted = u.rowsPrinted) ∨
       (u.bidx.toNat = 5 ∧ t.bidx.toNat = 0 ∧ t.numbersRead = u.numbersRead + 1 ∧
          ((t.reactor = u.reactor ∧ t.rowsPrinted = u.rowsPrinted) ∨
           (t.reactor = u.reactor ∧ t.rowsPrinted = u.rowsPrinted + 1) ∨
           (t.reactor = u.reactor + 1 ∧ t.rowsPrinted = 0)))) := by
    intro u hu
    rcases acceptByte_cases hu with ⟨hb, rfl⟩ | ⟨hb, hc⟩
    · have hb' := (bidx_lt_iff _).1 hb
      exact ⟨rfl, rfl, rfl, rfl, .inl ⟨hb', toNat_succ u.bidx (by omega), rfl, rfl, rfl⟩⟩
    · have hb' := toNat_of_eq_five hb
      rcases completeRecord_cases hc with ⟨_, rfl⟩ | ⟨_, d, _, ⟨_, rfl⟩ | ⟨_, rfl⟩⟩
      · exact ⟨rfl, rfl, rfl, rfl, .inr ⟨hb', rfl, rfl, .inl ⟨rfl, rfl⟩⟩⟩
      · exact ⟨rfl, rfl, rfl, rfl, .inr ⟨hb', rfl, rfl, .inr (.inr ⟨rfl, rfl⟩)⟩⟩
      · exact ⟨rfl, rfl, rfl, rfl, .inr ⟨hb', rfl, rfl, .inr (.inl ⟨rfl, rfl⟩)⟩⟩
  rcases transferByte_cases h with ⟨_, h⟩ | ⟨_, h⟩
  · exact key (popToken s) h
  · exact key s h

/-! ### The operations of RUN -/

/-- The invariant's clause for RUN, with the phase. -/
def RunOk (s : Block w) : Prop :=
  s.phase = .run ∧ s.Counts ∧ s.err = 0 ∧
    s.delivered ++ s.pending = outValues s.cfgNv s.cfgIv s.taken

theorem RunInv.runOk {s : Block w} (h : RunInv s) (hp : s.phase = .run) : RunOk s := ⟨hp, h.run hp⟩

theorem RunOk.inv {s : Block w} (h : RunOk s) (hs : ∀ x ∈ s.stim, x.known = true) : RunInv s := by
  refine ⟨?_, ?_, fun _ => h.2, ?_, hs⟩ <;> intro hp <;> rw [h.1] at hp <;> cases hp

/-- A byte taken with the holding register empty (R102, R103). -/
theorem acceptByte_runOk {s : Block w} (b : Byte) (h : RunOk s) (hv : s.oValid = false) :
    ∃ t, acceptByte b s = .next t ∧ RunOk t ∧ t.stim = s.stim ∧ t.taken = s.taken ++ [b] := by
  obtain ⟨hp, hc, he, ho⟩ := h
  have hl := hc.bidx_eq
  unfold Config.recBytes at hl
  unfold acceptByte
  by_cases hb : s.bidx < 5
  · rw [if_pos hb]
    have := (bidx_lt_iff _).1 hb
    refine ⟨_, rfl, ⟨hp, counts_storeByte b hc hb, he, ?_⟩, rfl, rfl⟩
    show s.delivered ++ (storeByte b (takeByte b s)).pending =
      outValues s.cfgNv s.cfgIv (s.taken ++ [b])
    rw [outValues_snoc_store _ _ _ _ (by omega), ← ho]
    rfl
  · have h5 : s.bidx = 5 := by
      have : ¬ s.bidx.toNat < 5 := fun h => hb ((bidx_lt_iff _).2 h)
      apply BitVec.eq_of_toNat_eq
      show _ = 5
      omega
    rw [if_neg hb, if_pos h5]
    obtain ⟨t, ht⟩ := completeRecord_of_legal b (s := takeByte b s) hc.iv_legal
    obtain ⟨c1, c2, c3, c4, c5, c6, c7, c8, c9, c10⟩ := counts_completeRecord b hc h5 ht
    have := toNat_of_eq_five h5
    refine ⟨t, ht, ⟨c2.trans hp, c1, c5.trans he, ?_⟩, c6, c7⟩
    rw [c3, c4, c7, c8, outValues_snoc_complete _ _ _ _ (by omega), ← ho]
    simp [Block.pending, hv, c9, c10]

/-- POP moves the waiting token to the delivered ones (R107). -/
theorem popToken_delivered_pending (s : Block w) (h : s.oValid = true) :
    (popToken s).delivered ++ (popToken s).pending = s.delivered ++ s.pending := by
  simp [Block.pending, h]

theorem popToken_runOk {s : Block w} (h : RunOk s) (hv : s.oValid = true) : RunOk (popToken s) :=
  ⟨h.1, h.2.1.congr rfl rfl rfl rfl rfl rfl rfl rfl rfl, h.2.2.1,
    (popToken_delivered_pending s hv).trans h.2.2.2⟩

/-- A byte transferred in any state of RUN (R41, R100). -/
theorem transferByte_runOk {s : Block w} (b : Byte) (h : RunOk s) :
    ∃ t, transferByte b s = .next t ∧ RunOk t ∧ t.stim = s.stim ∧ t.taken = s.taken ++ [b] := by
  unfold transferByte
  by_cases hv : s.oValid = true
  · rw [if_pos hv]
    exact acceptByte_runOk b (popToken_runOk h hv) rfl
  · rw [if_neg hv]
    exact acceptByte_runOk b h (by simpa using hv)

/-- EOS ends the run with Out (R106, R109). -/
theorem endStream_inv {s : Block w} (h : RunOk s) (hv : s.oValid = false)
    (hs : ∀ x ∈ s.stim, x.known = true) : RunInv (endStream s) := by
  obtain ⟨hp, hc, he, ho⟩ := h
  refine ⟨by simp, by simp, by simp, fun _ => ⟨?_, ?_, ?_⟩, by simpa using hs⟩
  · apply hc.congr <;> simp
  · simp only [endStream_err, he, endStream_bidx, endStream_col]
    show writeErr _ (s.bidx != 0 || s.col != 0) _ = _
    cases (s.bidx != 0 || s.col != 0) <;> decide
  · have hl : legalNoDiVars s.cfgNv = true := (legalNoDiVars_iff _).2 hc.nv_legal
    have hd : s.delivered = outValues s.cfgNv s.cfgIv s.taken := by
      simpa [Block.pending, hv] using ho
    simp [Block.pending, out, hl, hc.iv_legal, hd, endToken_eq_outEnd hc]

/-! ### The other operations -/

/-- START (R101). -/
theorem latchConfig_inv {s : Block w} (h : RunInv s) (hp : s.phase = .init)
    (nv : BitVec w.nvW) (iv : BitVec 8) : RunInv (latchConfig nv iv s) := by
  obtain ⟨hu, h1, h2, h3⟩ := h.init hp
  have hu' : (latchConfig nv iv s).Untouched := by
    obtain ⟨a1, a2, a3, a4, a5, a6, a7, a8, a9, a10⟩ := hu
    constructor <;> simpa
  refine ⟨?_, ?_, ?_, ?_, by simpa using h.stim_known⟩
  · rw [latchConfig_phase]; split <;> simp
  · intro hf
    refine ⟨hu', ?_⟩
    simp only [latchConfig_phase] at hf
    simp only [latchConfig_err, h3]
    cases hn : badNoDiVars nv <;> cases hi : badInterval iv <;> simp [hn, hi] at hf <;> decide
  · intro hf
    simp only [latchConfig_phase] at hf
    have hb : badNoDiVars nv = false ∧ badInterval iv = false := by
      cases hn : badNoDiVars nv <;> cases hi : badInterval iv <;> simp [hn, hi] at hf
      exact ⟨rfl, rfl⟩
    have hn : legalNoDiVars nv = true := by simpa [badNoDiVars] using hb.1
    have hi : legalInterval iv = true := by simpa [badInterval] using hb.2
    have ht : (latchConfig nv iv s).taken = [] := hu'.taken_eq
    have rc : recordCount [] = 0 := rfl
    refine ⟨⟨?_, ?_, ?_, ?_, ?_, ?_, ?_, ?_⟩, ?_, ?_⟩
    · simpa using (legalNoDiVars_iff _).1 hn
    · simpa using hi
    · rw [ht, hu'.bidx_eq]; rfl
    · rw [hu'.bidx_eq]; intro i hi; simp at hi
    · rw [ht, hu'.col_eq, rc]; simp
    · rw [ht, hu'.rows_eq, rc]; simp
    · rw [ht, hu'.reactor_eq, rc]; simp [rowReactor]
    · rw [ht, hu'.read_eq, rc]; simp
    · simp only [latchConfig_err, h3, hb]; decide
    · rw [ht]; simp only [Block.pending, hu'.valid_eq, hu'.delivered_eq]; rfl
  · rw [latchConfig_phase]; split <;> simp

/-- RESET (R150). -/
theorem resetBlock_inv {s : Block w} (h : ∀ x ∈ s.stim, x.known = true) : RunInv (resetBlock s) :=
  ⟨fun _ => ⟨⟨rfl, rfl, rfl, rfl, rfl, rfl, rfl, rfl, rfl, rfl⟩, rfl, rfl, rfl⟩,
    by simp, by simp, by simp, by simpa using h⟩

/-- POP (R107). -/
theorem popToken_inv {s : Block w} (h : RunInv s) (hv : s.oValid = true) : RunInv (popToken s) := by
  refine ⟨?_, ?_, ?_, ?_, by simpa using h.stim_known⟩
  · intro hp; have := (h.init hp).1.valid_eq; rw [hv] at this; cases this
  · intro hp; have := (h.fault hp).1.valid_eq; rw [hv] at this; cases this
  · intro hp; exact (popToken_runOk (h.runOk hp) hv).2
  · intro hp
    obtain ⟨a, b, c⟩ := h.done hp
    exact ⟨a.congr rfl rfl rfl rfl rfl rfl rfl rfl rfl, b,
      (popToken_delivered_pending s hv).trans c⟩

/-- The invariant reads only the block, the stimuli, the bytes taken and the tokens delivered. -/
theorem RunInv.withOwn {s : Block w} (h : RunInv s) (stim : List (Stimulus w)) (n : Nat)
    (r : List Binary64) (hs : ∀ x ∈ stim, x.known = true) :
    RunInv { s with stim := stim, freeEdges := n, results := r } := by
  refine ⟨?_, ?_, ?_, ?_, hs⟩
  · intro hp
    obtain ⟨⟨a1, a2, a3, a4, a5, a6, a7, a8, a9, a10⟩, b⟩ := h.init hp
    exact ⟨⟨a1, a2, a3, a4, a5, a6, a7, a8, a9, a10⟩, b⟩
  · intro hp
    obtain ⟨⟨a1, a2, a3, a4, a5, a6, a7, a8, a9, a10⟩, b⟩ := h.fault hp
    exact ⟨⟨a1, a2, a3, a4, a5, a6, a7, a8, a9, a10⟩, b⟩
  · intro hp
    obtain ⟨a, b⟩ := h.run hp
    exact ⟨a.congr rfl rfl rfl rfl rfl rfl rfl rfl rfl, b⟩
  · intro hp
    obtain ⟨a, b⟩ := h.done hp
    exact ⟨a.congr rfl rfl rfl rfl rfl rfl rfl rfl rfl, b⟩

/-! ### Many steps -/

/-- One more step of a run. -/
theorem core_run_succ {s t : Sys2Proof.core.State} (n : Nat) (h : step s = .next t) :
    Host.Core.run Sys2Proof.core (n + 1) s = Host.Core.run Sys2Proof.core n t := by
  have key : ∀ {M : Host.Core} {s t : M.State}, M.step s = .next t → M.run (n + 1) s = M.run n t := by
    intro M s t h
    simp only [Host.Core.run, h]
  exact key h

end Sys2Proof.Machine
end

