-- ==== Sys2Proof/Tests/Slice0.lean ====
section
/-! SUPPORT. Tests: words written out from the encodings of the spec, an ill-formed term per check, one-step tests on
values of 95_test_vectors.md (cited at each), and for every statement with hypotheses states and operands that
meet them. -/

namespace Sys2Proof.Tests

open Sys2Proof.Machine

/-- The widths of the tests, but where a test says otherwise: R6's defaults. -/
abbrev W : Widths := Widths.default

/-! ### Decoding: each row's word, written out bit by bit from the table's encoding -/

/-- `DECODE48.ZERO`: 48 zeros. -/
theorem test_decode_decode48Zero :
    decodeTableWord 48 0b000000000000000000000000000000000000000000000000 = some .decode48Zero := by
  decide

/-- `DECODE48.NORMAL`: bytes e a b c d sh of 30_encoding.md R61's example. -/
theorem test_decode_decode48Normal :
    decodeTableWord 48 0b100011010010010101111100111000101001110100000111 =
      some (.decode48Normal 0x8d false 0x079de27c25) := by
  decide

/-- `DECODE48.NORMAL`, the sign bit alone (R62). -/
theorem test_decode_signOnly :
    decodeTableWord 48 0b000000000000000000000000000000000000000010000000 =
      some (.decode48Normal 0 true 0) := by
  decide

/-- `BYTE.STORE`: 0bbbbbbbb at a byte index below 5. -/
theorem test_decode_byteStore : decodeTableWord 16 0b010001101 = some (.byteStore 0x8d) := by decide

/-- `BYTE.COMPLETE`: the same pattern at byte index 5. -/
theorem test_decode_byteComplete : decode W 5 ⟨.inputToken, 0b000000111⟩ = .ok (.byteComplete 0x07) := by
  decide

/-- `EOS`: 1xxxxxxxx, in_data ignored. -/
theorem test_decode_eos :
    decodeTableWord 16 0b100000000 = some .eos ∧ decodeTableWord 16 0b101011010 = some .eos := by
  decide

/-- `REC`: 0e 0a 0b 0c 0d 0sh, the first token leftmost (R69's example). -/
theorem test_decode_recLine :
    decodeTableWord 56 0b010001101000100101001111100011100010010011101000000111 =
      some (.recLine 0x8d257ce29d07) := by
  decide

/-- `START`: 000, and with operands 2 and 10 above it (log entry 9). -/
theorem test_decode_start :
    decodeTableWord 8 0b000 = some (.start 0 0) ∧
    decodeTableWord 32 0b00000000000000100000101000000000 = some (.start 2 10) := by
  decide

/-- `POP`: 011. -/
theorem test_decode_pop : decodeTableWord 8 0b011 = some .pop := by decide

/-- `RESET`: 1. -/
theorem test_decode_reset : decodeTableWord 8 0b1 = some .reset := by decide

/-- `VALUE`: 000pq, reactor, ticks, col, data; the first token of program P1. -/
theorem test_decode_value :
    decodeTableWord 128 (0b00010 * 2 ^ 120 + 1 * 2 ^ 88 + 0 * 2 ^ 80 + 0 * 2 ^ 64 + 0x40b0f3bc4f84a000) =
      some (.value true false 1 0 0 0x40b0f3bc4f84a000) := by
  decide

/-- `END`: 1uw00, reactor, ticks, col, zeros; the END token of program P2. -/
theorem test_decode_endTok :
    decodeTableWord 128 (0b11100 * 2 ^ 120 + 1 * 2 ^ 88 + 1 * 2 ^ 80 + 1 * 2 ^ 64) =
      some (.endTok true true 1 1 1) := by
  decide

/-- Words of no format are refused, each for its reason. -/
theorem test_decode_refuses :
    decode W 0 ⟨.other 24, 0⟩ = .error .noFormat ∧ decode W 0 ⟨.inputToken, 0x200⟩ = .error .strayBits ∧
    decode W 0 ⟨.control, 0b010⟩ = .error .noControlStep ∧ decode W 0 ⟨.recTokens, 2 ^ 53⟩ = .error .recNotBytes ∧
    decode W 0 ⟨.outputToken, 0b10001 * 2 ^ 120⟩ = .error .fixedFieldSet := by
  decide

/-- At other widths (R6): with NV_W = 32 a START word and a PackedReal word both have 48 bits and both decode; an
output token is laid out with the widths of R64. -/
theorem test_decode_widths :
    decode ⟨32, 32, 64⟩ 0 ⟨.startPorts, 100000 * 2 ^ 16 + 10 * 2 ^ 8⟩ = .ok (.start 100000 10) ∧
    decode ⟨32, 32, 64⟩ 0 ⟨.packedReal, 0x8d257ce29d07⟩ = .ok (.decode48Normal 0x8d false 0x079de27c25) ∧
    decode ⟨1, 1, 1⟩ 0 ⟨.outputToken, 0b11100 * 2 ^ 74 + 1 * 2 ^ 73 + 7 * 2 ^ 65 + 1 * 2 ^ 64⟩ =
      .ok (.endTok true true 1 7 1) ∧
    Format.outputToken.width ⟨1, 1, 1⟩ = 79 ∧ Format.outputToken.width W = 125 := by
  decide

/-! ### WellFormed: an ill-formed term for each check -/

/-- R6, R66: the port presents 0 to 2^NV_W - 1. -/
theorem test_illFormed_start_nodivars :
    (Instr.start 65536 10).wellFormed W = false ∧ (Instr.start 65535 10).wellFormed W = true ∧
    (Instr.start 65536 10).wellFormed ⟨17, 32, 64⟩ = true := by
  decide

/-- R64: the tags have REACTOR_W and NV_W bits. -/
theorem test_illFormed_tags :
    (Instr.value false false 4294967296 0 1 0).wellFormed W = false ∧
    (Instr.value false false 1 0 65536 0).wellFormed W = false ∧
    (Instr.endTok false true 4294967296 0 1).wellFormed W = false ∧
    (Instr.endTok false true 1 0 65536).wellFormed W = false := by
  decide

theorem test_illFormed_decode48Normal : (Instr.decode48Normal 0 false 0).wellFormed W = false := by
  decide

theorem test_illFormed_value_sor : (Instr.value false false 1 0 0 0).wellFormed W = false := by decide

/-- `+2^-129` is never produced (R94), nor is a word with a low fraction bit set (R91). -/
theorem test_illFormed_value_data :
    (Instr.value true false 1 0 0 0x37e0000000000000).wellFormed W = false ∧
    (Instr.value true false 1 0 0 0x3ff0000000000001).wellFormed W = false := by
  decide

theorem test_illFormed_endTok : (Instr.endTok false false 1 0 1).wellFormed W = false := by decide

/-! ### States of the tests -/

/-- The block after reset. -/
def fresh : Block W := Block.reset W

/-- A run after START with a legal configuration. -/
def running (nv : BitVec 16) (iv : BitVec 8) : Block W :=
  { fresh with phase := .run, cfgNv := nv, cfgIv := iv }

/-- 95_test_vectors.md 3.2: five bytes of the first record held. -/
def fiveHeld : Block W := { running 2 10 with sr := #v[0x8d, 0x25, 0x7c, 0xe2, 0x9d], bidx := 5 }

/-- The state a step answers, or the reset state where it stops. -/
def nextOf : Host.Outcome State Fault Refusal → State
  | .next s => s
  | .fault _ => State.reset
  | .refused _ => State.reset

/-- The state after an operation. -/
def after {w : Widths} (i : Instr) (k : Block w) : State := nextOf (exec i ⟨w, k⟩)

/-- The pins of an edge with nothing on them. -/
def quiet : Pins W := ⟨false, false, false, 0, false, 0, 0⟩

/-! ### One step of each row -/

/-- 95_test_vectors.md section 2, first row. -/
theorem test_exec_decode48Zero : (after .decode48Zero fresh).block.results = [0] := by decide

/-- 95_test_vectors.md section 2, rows S2 and the most negative result. -/
theorem test_exec_decode48Normal :
    (after (.decode48Normal 0x8d false 0x079de27c25) fresh).block.results =
      [0x40b0f3bc4f84a000] ∧
    (after (.decode48Normal 255 true 0x7fffffffff) fresh).block.results =
      [0xc7dfffffffffe000] := by
  decide

/-- 95_test_vectors.md 3.2, first row, and the byte that fills the register. -/
theorem test_exec_byteStore :
    (after (.byteStore 0x8d) (running 2 10)).block.sr = #v[0x8d, 0, 0, 0, 0] ∧
    (after (.byteStore 0x8d) (running 2 10)).block.bidx = 1 ∧
    (after (.byteStore 0x9d) { running 2 10 with bidx := 4 }).block.sr = #v[0, 0, 0, 0, 0x9d] := by
  decide

/-- 95_test_vectors.md 3.2, the sixth byte. -/
theorem test_exec_byteComplete :
    (after (.byteComplete 0x07) fiveHeld).block.oTok =
      ⟨false, false, false, true, false, 1, 0, 0, 0x40b0f3bc4f84a000⟩ ∧
    (after (.byteComplete 0x07) fiveHeld).block.col = 1 ∧
    (after (.byteComplete 0x07) fiveHeld).block.bidx = 0 ∧
    (after (.byteComplete 0x07) fiveHeld).block.numbersRead = 1 := by
  decide

/-- 95_test_vectors.md 3.3: rollover with wrap of `reactor` at rowsPrinted 49, increment at 48. -/
theorem test_exec_byteComplete_row :
    (after (.byteComplete 0)
      { running 1 30 with bidx := 5, rowsPrinted := 49, reactor := 0xffffffff }).block.reactor = 0 ∧
    (after (.byteComplete 0)
      { running 1 30 with bidx := 5, rowsPrinted := 49, reactor := 0xffffffff }).block.rowsPrinted = 0 ∧
    (after (.byteComplete 0) { running 1 30 with bidx := 5, rowsPrinted := 48 }).block.rowsPrinted
      = 49 := by
  decide

/-- 95_test_vectors.md 3.4, last row, and an end on a row boundary. -/
theorem test_exec_eos :
    (after .eos { running 3 10 with bidx := 1, col := 1, rowsPrinted := 5 }).block.oTok =
      ⟨true, true, true, false, false, 1, 5, 1, 0⟩ ∧
    (after .eos { running 3 10 with bidx := 1, col := 1, rowsPrinted := 5 }).block.err = 0b100 ∧
    (after .eos (running 3 10)).block.err = 0 ∧ (after .eos (running 3 10)).block.phase = .done := by
  decide

/-- REC is its six bytes (R69): the first record of program P2. -/
theorem test_exec_recLine :
    (after (.recLine 0x810000000000) (running 2 15)).block.oTok.data = 0x3ff0000000000000 ∧
    (after (.recLine 0x810000000000) (running 2 15)).block.col = 1 := by
  decide

/-- 95_test_vectors.md 3.1: both conditions, and the greatest NoDiVars. -/
theorem test_exec_start :
    (after (.start 0 12) fresh).block.err = 0b011 ∧
    (after (.start 0 12) fresh).block.phase = .fault ∧
    (after (.start 65535 30) fresh).block.phase = .run ∧
    (after (.start 3 20) fresh).block.err = 0b010 := by
  decide

/-- R107: o_tok keeps its bits. -/
theorem test_exec_pop :
    (after .pop { running 1 10 with oValid := true, oTok := ⟨false, false, false, true, true,
      1, 0, 0, 0x3ff8000000000000⟩ }).block.oValid = false ∧
    (after .pop { running 1 10 with oValid := true, oTok := ⟨false, false, false, true, true,
      1, 0, 0, 0x3ff8000000000000⟩ }).block.oTok.data = 0x3ff8000000000000 := by
  decide

/-- R150, from the middle of a record. -/
theorem test_exec_reset :
    (after .reset fiveHeld).block.phase = .init ∧
    (after .reset fiveHeld).block.sr = #v[0, 0, 0, 0, 0] ∧
    (after .reset fiveHeld).block.reactor = 1 := by
  decide

/-- R9: OutPush. -/
theorem test_exec_value :
    (after (.value true false 1 0 0 0x40b0f3bc4f84a000) (running 2 10)).block.oTok.sor = true ∧
    (after (.value true false 1 0 0 0x40b0f3bc4f84a000) (running 2 10)).block.oValid = true := by
  decide

theorem test_exec_endTok :
    (after (.endTok true false 1 5 0) (running 2 10)).block.oTok.truncRecord = true ∧
    (after (.endTok true false 1 5 0) (running 2 10)).block.oTok.eos = true := by
  decide

/-- R6, R113: at other widths `reactor` and `numbersRead` wrap modulo their own 2^W, and 2^16 dividing variables are
legal where NV_W is 17. -/
theorem test_exec_widths :
    (after (.byteComplete 0) { Block.reset ⟨16, 1, 1⟩ with
      phase := .run, cfgNv := 1, cfgIv := 30, bidx := 5, rowsPrinted := 49, numbersRead := 1 })
      = ⟨⟨16, 1, 1⟩, { Block.reset ⟨16, 1, 1⟩ with
          phase := .run, cfgNv := 1, cfgIv := 30, reactor := 0, taken := [0], oValid := true,
          oTok := ⟨false, false, false, true, true, 1, 49, 0, 0⟩ }⟩ ∧
    (after (.start 65536 10) (Block.reset ⟨17, 32, 64⟩)).block.phase = .run ∧
    (after (.start 65536 10) (Block.reset ⟨16, 32, 64⟩)).block.err = 0b001 := by
  decide

/-- Edge 10 of program P6: POP then BYTE within one edge. -/
theorem test_edge_pop_then_byte :
    (nextOf (clockEdge { quiet with inValid := true, inData := 0x84, outReady := true }
      { running 1 10 with oValid := true })).block.bidx = 1 ∧
    (nextOf (clockEdge { quiet with inValid := true, inData := 0x84, outReady := true }
      { running 1 10 with oValid := true })).block.oValid = false := by
  decide

/-! ### States of a run, for the statements whose hypothesis is the invariant -/

theorem running_runOk : RunOk (running 1 10) :=
  ⟨rfl, ⟨by decide, by decide, by decide, by decide, by decide, by decide, by decide, by decide⟩,
    rfl, rfl⟩

/-- The invariant in INIT, RUN, FAULT (P4) and DONE (P5). -/
theorem witness_RunInv :
    RunInv fresh ∧ RunInv (running 1 10) ∧ RunInv (latchConfig 0 12 fresh) ∧
    RunInv (endStream (running 1 10)) := by
  have h : RunInv fresh := resetBlock_inv (s := fresh) (by decide)
  exact ⟨h, running_runOk.inv (by decide), latchConfig_inv h rfl 0 12,
    endStream_inv running_runOk rfl (by decide)⟩

/-- The first record of program P6 taken, its token delivered. -/
def oneRow : Block W :=
  { running 1 10 with
    sr := #v[0x81, 0, 0, 0, 0], rowsPrinted := 1, numbersRead := 1,
    taken := [0x81, 0, 0, 0, 0, 0x40], delivered := [⟨false, false, false, true, true, 1, 0, 0,
      0x3ff8000000000000⟩] }

theorem oneRow_runOk : RunOk oneRow :=
  ⟨rfl, ⟨by decide, by decide, by decide, by decide, by decide, by decide, by decide, by decide⟩,
    rfl, by decide⟩

/-! ### Hypotheses that can be met: decoding -/

/-- Every row is well formed somewhere, its operands at the ends of their ranges, and is a row at the boundary byte
indices. -/
theorem witness_DecodeInvertsEncode :
    (Instr.decode48Normal 0 true 0).wellFormed W = true ∧
    (Instr.decode48Normal 255 true 0x7fffffffff).wellFormed W = true ∧
    (Instr.byteStore 0).rowAt 4 = true ∧ (Instr.byteComplete 0).rowAt 5 = true ∧
    (Instr.byteComplete 0).rowAt 7 = true ∧
    (Instr.start 0 0).wellFormed W = true ∧ (Instr.start 65535 255).wellFormed W = true ∧
    (Instr.start 1 0).wellFormed ⟨1, 1, 1⟩ = true ∧
    (Instr.value true false 1 0 0 0).wellFormed W = true ∧
    (Instr.value false true 1 145 65535 0xb7e0000000000000).wellFormed W = true ∧
    (Instr.endTok true true 4294967295 0 1).wellFormed W = true ∧
    (Instr.endTok true false 1 0 0).wellFormed W = true := by
  decide

theorem witness_DecodeNormalDrivesPackedFields :
    (Instr.decode48Normal 0 true 0).wellFormed W = true ∧
    (Instr.decode48Normal 0 false 1).wellFormed W = true ∧
    (Instr.decode48Normal 255 true 0x7fffffffff).wellFormed W = true := by
  decide

/-- The last bit of each range. -/
theorem witness_FieldAssembly : 7 < 8 ∧ 38 < 39 := by decide

/-- For ZeroCheckHasPriority, BiasOffsetIsExact, SignNegatesMagnitude and ResultBitsHaveTheExactValue. -/
theorem witness_patterns :
    zeroCheck 0 = true ∧ (0x000000000080 : PackedReal) ≠ 0 ∧
    (0x000000000080 : PackedReal).getLsbD 7 = true ∧ (0x000100000000 : PackedReal) ≠ 0 := by
  decide

theorem witness_SignFlipNegates :
    (0x000000000081 : PackedReal) ≠ 0x000000000000 ∧
    (0x000000000081 : PackedReal) ≠ 0x000000000080 := by
  decide

/-- The two clauses of the exclusion, at byte 0 = 0, 1 and 254. -/
theorem witness_ExponentIncrementDoubles :
    ((0x000000000080 : PackedReal).extractLsb' 40 8 ≠ 255 ∧
      (0x000000000080 : PackedReal).extractLsb' 0 40 ≠ 0) ∧
    ((0x010000000000 : PackedReal).extractLsb' 40 8 ≠ 255 ∧
      (0x010000000000 : PackedReal).extractLsb' 40 8 ≠ 0) ∧
    ((0xfe0000000000 : PackedReal).extractLsb' 40 8 ≠ 255 ∧
      (0xfe0000000000 : PackedReal).extractLsb' 40 8 ≠ 0) := by
  decide

/-- Both ends of the range of normal results are met. -/
theorem witness_DecodeIsInjective :
    ((0x000000000080 : PackedReal) ≠ 0 ∧ decode48 0x000000000080 = 0xb7e0000000000000) ∧
    894#11 ≤ 894#11 ∧ 1149#11 ≤ 1149#11 ∧
    (BitVec.ofBool true ++ 894#11 ++ 0#39 ++ 0#13 : Binary64) ≠ 0x37e0000000000000 := by
  decide

theorem witness_ResultRange :
    0 < decode48Value 0x810000000000 ∧ decode48Value 0x810000000080 < 0 := by
  have h1 : decode48Value 0x810000000000 = magnitudeValue 0x810000000000 := by
    unfold decode48Value
    rw [if_neg (by decide), if_neg (by decide)]
  have h2 : decode48Value 0x810000000080 = -magnitudeValue 0x810000000080 := by
    unfold decode48Value
    rw [if_neg (by decide), if_pos (by decide)]
  have h3 : ∀ p, 0 < magnitudeValue p := fun p => by
    unfold magnitudeValue mantissaValue
    positivity
  rw [h1, h2]
  exact ⟨h3 _, by linarith [h3 0x810000000080]⟩

/-! ### Hypotheses that can be met: the block -/

theorem witness_ResetHasPriority : ({ quiet with rst := true } : Pins W).rst = true := rfl

theorem witness_StartLatchesAndChecks :
    fresh.phase = .init ∧ (running 1 10).phase ≠ .init ∧ quiet.rst = false := by
  decide

theorem witness_RefusedConfigurationIsTerminal :
    (RunInv fresh ∧ fresh.phase = .init) ∧
    (RunInv (latchConfig 0 12 fresh) ∧ (latchConfig 0 12 fresh).phase = .fault ∧
      quiet.rst = false) :=
  ⟨⟨witness_RunInv.1, rfl⟩, witness_RunInv.2.2.1, by decide, rfl⟩

/-- At byte index 0 and at 4. -/
theorem witness_ByteStoreFillsAssemblyRegister :
    ((running 1 10).phase = .run ∧ (running 1 10).oValid = false ∧ (running 1 10).bidx.toNat < 5) ∧
    ({ running 1 10 with bidx := 4 } : Block W).bidx.toNat < 5 := by
  decide

theorem witness_ByteCompletePushesValue :
    fiveHeld.phase = .run ∧ fiveHeld.oValid = false ∧ fiveHeld.bidx = 5 ∧
    fiveHeld.col ≠ fiveHeld.cfgNv - 1 := by
  decide

/-- At the last column, with each legal interval, at both sides of the rollover. -/
theorem witness_ByteCompleteClosesRow :
    ({ fiveHeld with col := 1 } : Block W).phase = .run ∧
    ({ fiveHeld with col := 1 } : Block W).oValid = false ∧
    ({ fiveHeld with col := 1 } : Block W).bidx = 5 ∧
    ({ fiveHeld with col := 1 } : Block W).col = ({ fiveHeld with col := 1 } : Block W).cfgNv - 1 ∧
    fiveHeld.cfgIv = 10 ∧ ({ fiveHeld with cfgIv := 15 } : Block W).cfgIv = 15 ∧
    ({ fiveHeld with cfgIv := 30 } : Block W).cfgIv = 30 ∧
    ¬1440 / fiveHeld.cfgIv.toNat < ({ fiveHeld with rowsPrinted := 144 } : Block W).rowsPrinted.toNat ∧
    1440 / fiveHeld.cfgIv.toNat < ({ fiveHeld with rowsPrinted := 145 } : Block W).rowsPrinted.toNat := by
  decide

theorem witness_RowTagsClosedForm :
    legalInterval (running 1 10).cfgIv = true ∧ (running 1 10).rowsPrinted = 0 ∧
    (running 1 10).reactor = 1 ∧ 145 ≤ 145 := by
  decide

/-- For EosPushesEnd and TokenRowsPushTheirToken. -/
theorem witness_inputEnabled : (running 3 10).phase = .run ∧ (running 3 10).oValid = false := by
  decide

theorem witness_TruncatedRecordExactlyWhenShort :
    (RunInv (running 1 10) ∧ (running 1 10).phase = .run ∧ (running 1 10).oValid = false) ∧
    (RunInv oneRow ∧ oneRow.phase = .run ∧ oneRow.oValid = false) :=
  ⟨⟨witness_RunInv.2.1, rfl, rfl⟩, oneRow_runOk.inv (by decide), rfl, rfl⟩

theorem witness_RecIsSixBytes :
    (running 2 15).phase = .run ∧ (running 2 15).oValid = false ∧ (running 2 15).bidx = 0 ∧
    legalInterval (running 2 15).cfgIv = true := by
  decide

theorem witness_RecTakesSixBytesAnywhere :
    (RunInv fresh ∧ fresh.phase ≠ .run) ∧
    (RunInv (running 1 10) ∧ (running 1 10).phase = .run) :=
  ⟨⟨witness_RunInv.1, by decide⟩, witness_RunInv.2.1, rfl⟩

/-- Each clause, at the byte indices 5, 7 and 4, 6, and at an interval that is not legal. -/
theorem witness_ByteRowsStopOutsideTheirRules :
    (fiveHeld.phase = .run ∧ fiveHeld.oValid = false ∧ 5 ≤ fiveHeld.bidx.toNat ∧
      5 ≤ ({ fiveHeld with bidx := 7 } : Block W).bidx.toNat) ∧
    (({ fiveHeld with bidx := 4 } : Block W).bidx ≠ 5 ∧
      ({ fiveHeld with bidx := 6 } : Block W).bidx ≠ 5) ∧
    (({ fiveHeld with col := 1, cfgIv := 20 } : Block W).bidx = 5 ∧
      ({ fiveHeld with col := 1, cfgIv := 20 } : Block W).col =
        ({ fiveHeld with col := 1, cfgIv := 20 } : Block W).cfgNv - 1 ∧
      ({ fiveHeld with col := 1, cfgIv := 20 } : Block W).cfgIv.toNat ∉ [10, 15, 30]) := by
  decide

theorem witness_NotEnabledChangesNothing :
    fresh.phase ≠ .run ∧ ({ running 1 10 with oValid := true } : Block W).oValid = true ∧
    fresh.oValid = false := by
  decide

theorem witness_PopDeliversHeldToken :
    ({ running 1 10 with oValid := true } : Block W).oValid = true := rfl

/-- One edge for each line of R100: reset, START, POP with an input step, POP alone, an input step alone,
nothing. -/
theorem witness_EdgePerformsItsSteps :
    ({ quiet with rst := true } : Pins W).rst = true ∧
    (quiet.rst = false ∧ fresh.phase = .init) ∧
    (quiet.rst = false ∧ (running 1 10).phase ≠ .init) ∧
    (({ running 1 10 with oValid := true } : Block W).oValid &&
      ({ quiet with outReady := true } : Pins W).outReady) = true ∧
    (({ quiet with inValid := true, outReady := true } : Pins W).inValid &&
      (running 1 10).phase == .run && (!(running 1 10).oValid || quiet.outReady)) = true ∧
    (quiet.inValid && (running 1 10).phase == .run &&
      (!(running 1 10).oValid || quiet.outReady)) = false ∧
    ((running 1 10).oValid && quiet.outReady) = false := by
  decide

/-- One state for each kind of stimulus. -/
theorem witness_StepRunsNextStimulus :
    ({ fresh with stim := [.edge quiet] } : Block W).stim = .edge quiet :: [] ∧
    decode W fresh.bidx ⟨.control, 3⟩ = .ok .pop ∧
    decode W fresh.bidx ⟨.control, 2⟩ = .error .noControlStep := by
  decide

/-- A transfer on the input, one on the output, and none. -/
theorem witness_TransfersAreExact :
    quiet.rst = false ∧ (running 1 10).phase ≠ .init ∧
    clockEdge quiet (running 1 10) = .next ⟨W, running 1 10⟩ ∧
    clockEdge { quiet with inValid := true } (running 1 10) =
      .next ⟨W, storeByte 0 (takeByte 0 (running 1 10))⟩ ∧
    clockEdge { quiet with outReady := true } { running 1 10 with oValid := true } =
      .next ⟨W, popToken { running 1 10 with oValid := true }⟩ :=
  ⟨rfl, by decide, rfl, rfl, rfl⟩

/-- Each way an edge can be idle. -/
theorem witness_IdleEdgeChangesNothing :
    (quiet.rst = false ∧ (running 1 10).phase ≠ .init ∧ (running 1 10).oValid = false ∧
      quiet.inValid = false) ∧
    (({ quiet with inValid := true } : Pins W).inValid = true ∧
      ({ running 1 10 with oValid := true } : Block W).oValid = true ∧ quiet.outReady = false) ∧
    ((latchConfig 0 12 fresh).phase ≠ .run ∧ (latchConfig 0 12 fresh).oValid = false) ∧
    (endStream (running 1 10)).phase = .done ∧ (latchConfig 0 12 fresh).phase = .fault := by
  decide

theorem witness_BlockNeverBlocksItself :
    (RunInv (running 1 10) ∧ ({ quiet with inValid := true, outReady := true } : Pins W).rst = false ∧
      (running 1 10).phase = .run) ∧
    (RunInv (endStream (running 1 10)) ∧ (endStream (running 1 10)).phase = .done ∧
      (endStream (running 1 10)).oValid = true) :=
  ⟨⟨witness_RunInv.2.1, rfl, rfl⟩, witness_RunInv.2.2.2, by decide, by decide⟩

/-- For WidthsNeverChange, PhaseTransitions, ConfigurationWrittenByStartAndReset and CountersOnlyCountRecords: a step
and operations that answer a next state, and the phases the clauses name. -/
theorem witness_exec_next :
    step ⟨W, { fresh with stim := [.edge quiet] }⟩ = .next ⟨W, latchConfig 0 0 fresh⟩ ∧
    exec (.start 1 10) ⟨W, fresh⟩ = .next ⟨W, running 1 10⟩ ∧ fresh.phase = .init ∧
    exec .eos ⟨W, running 1 10⟩ = .next ⟨W, endStream (running 1 10)⟩ ∧ (running 1 10).phase = .run ∧
    (running 1 10).oValid = false ∧ (running 1 10).inReady false = true ∧
    (RunInv (latchConfig 0 12 fresh) ∧ (latchConfig 0 12 fresh).phase = .fault) ∧
    badInterval 20 = true :=
  ⟨rfl, rfl, rfl, rfl, rfl, rfl, rfl, ⟨witness_RunInv.2.2.1, by decide⟩, by decide⟩

/-- A refused configuration keeps its bits through a START that is not enabled. -/
theorem witness_ErrorBitsAreSticky :
    RunInv (latchConfig 0 12 fresh) ∧
    exec (.start 1 10) ⟨W, latchConfig 0 12 fresh⟩ = .next ⟨W, latchConfig 0 12 fresh⟩ ∧
    (Instr.start 1 10 : Instr) ≠ .reset ∧ (latchConfig 0 12 fresh).err.getLsbD 1 = true ∧
    RunInv fresh ∧ fresh.phase = .init :=
  ⟨witness_RunInv.2.2.1, rfl, by decide, by decide, witness_RunInv.1, rfl⟩

/-- At rowsPrinted = dpd and at dpd + 1. -/
theorem witness_RowCompletionAdvancesTime :
    legalInterval (running 1 10).cfgIv = true ∧
    ({ running 1 10 with rowsPrinted := 144 } : Block W).rowsPrinted.toNat ≤ 1440 / (10#8).toNat ∧
    1440 / (10#8).toNat < ({ running 1 10 with rowsPrinted := 145 } : Block W).rowsPrinted.toNat ∧
    ({ running 1 10 with rowsPrinted := 145 } : Block W).rowsPrinted.toNat ≤
      1440 / (10#8).toNat + 1 := by
  decide

theorem witness_AccumulatedTimeAgrees : 97 ≤ 97 ∧ 49 ≤ 49 ∧ 145 ≤ 145 := by decide

theorem witness_ClosedRowsAreWhole :
    RunInv oneRow ∧ oneRow.phase = .run ∧
    (oneRow.delivered ++ oneRow.pending)[0]? =
      some ⟨false, false, false, true, true, 1, 0, 0, 0x3ff8000000000000⟩ ∧
    0 < oneRow.cfgNv.toNat :=
  ⟨oneRow_runOk.inv (by decide), rfl, rfl, by decide⟩

/-- An edge, an operation's word, and the word of an undefined control condition. -/
theorem witness_ResetMeetsRunInvariant :
    (∀ x ∈ [Stimulus.edge quiet, .word ⟨.inputToken, 0x8d⟩, .word ⟨.control, 3⟩], x.known = true) ∧
    (Stimulus.word ⟨.control, 2⟩ : Stimulus W).known = false := by
  decide

theorem witness_StepKeepsRunInvariant :
    RunInv fresh ∧ RunInv (running 1 10) ∧ RunInv (latchConfig 0 12 fresh) ∧
    RunInv (endStream (running 1 10)) ∧ RunInv oneRow :=
  ⟨witness_RunInv.1, witness_RunInv.2.1, witness_RunInv.2.2.1, witness_RunInv.2.2.2,
    oneRow_runOk.inv (by decide)⟩

/-- The pins of a RESET edge with NoDiVars 1 and interval 10 on the ports, and of the edges after it. -/
def ports : Pins W := { quiet with outReady := true, cfgNodivars := 1, cfgInterval := 10 }

/-- The stimuli of program P5 (with NoDiVars 1), an edge longer. -/
def emptySource : List (Stimulus W) :=
  [.edge ports, .edge { ports with inValid := true, inEos := true }, .edge ports, .edge ports]

/-- The state after these stimuli. -/
def ended : Block W :=
  { endStream (running 1 10) with oValid := false, delivered := [endToken (running 1 10)] }

/-- The states that clauses of R32 speak of are reached: INIT, RUN, DONE with the END token held and popped. -/
theorem witness_ReachableStatesMeetStatedInvariants :
    (∀ x ∈ emptySource, x.known = true) ∧
    Host.Core.run Sys2Proof.core 0 (State.mk W { fresh with stim := emptySource }) =
      .next (State.mk W { fresh with stim := emptySource }) ∧
    Host.Core.run Sys2Proof.core 1 (State.mk W { fresh with stim := emptySource }) =
      .next (State.mk W { running 1 10 with stim := emptySource.drop 1 }) ∧
    Host.Core.run Sys2Proof.core 2 (State.mk W { fresh with stim := emptySource }) =
      .next (State.mk W { endStream (running 1 10) with stim := emptySource.drop 2 }) ∧
    Host.Core.run Sys2Proof.core 3 (State.mk W { fresh with stim := emptySource }) =
      .next (State.mk W { ended with stim := emptySource.drop 3 }) ∧
    ended.phase = .done ∧ (Instr.eos : Instr) ≠ .reset ∧ ended.oValid = false ∧
    ended.taken.length / 6 < 2 ^ W.numreadW ∧
    ended.taken.length / 6 / ended.cfgNv.toNat / (1440 / ended.cfgIv.toNat + 2) + 1 <
      2 ^ W.reactorW :=
  ⟨by decide, rfl, rfl, rfl, rfl, by decide, by decide, by decide, by decide, by decide⟩

/-- FAULT is reached too (program P4). -/
theorem witness_ReachableStatesMeetStatedInvariants_fault :
    Host.Core.run Sys2Proof.core 1
        (State.mk W { fresh with stim := [.edge { ports with cfgNodivars := 0, cfgInterval := 12 }] }) =
      .next (State.mk W (latchConfig 0 12 fresh)) ∧
    (latchConfig 0 12 fresh).phase = .fault :=
  ⟨rfl, by decide⟩

theorem witness_EveryScheduleDeliversOut :
    ({ ports with rst := true } : Pins W).rst = true ∧ (∀ x ∈ emptySource, x.known = true) ∧
    Host.Core.run Sys2Proof.core (3 + 1)
        (State.mk W { fiveHeld with stim := .edge { ports with rst := true } :: emptySource }) =
      .next (State.mk W { ended with stim := emptySource.drop 3 }) ∧
    ({ ended with stim := emptySource.drop 3 } : Block W).overAndGood :=
  ⟨rfl, by decide, rfl, by decide, by decide⟩

/-- A legal configuration and one that is not. -/
theorem witness_EverySourceRunsToItsOut :
    (legalNoDiVars (w := W) 1 = true ∧ legalInterval 10 = true) ∧
    ¬(legalNoDiVars (w := W) 0 = true ∧ legalInterval 12 = true) := by
  decide

end Sys2Proof.Tests
end

section
/-! The statements of 10_state.md about the values at reset (R33), the phases (R22) and the latched configuration
(R23). The last two turn on one fact: every operation but RESET, an enabled START and an enabled EOS keeps the
control elements of the block, and each of these three does one known thing. -/

namespace Sys2Proof.Machine

variable {w : Widths}

/-! ### The three operations that write the control elements -/

theorem exec_reset (s : Block w) : exec .reset ⟨w, s⟩ = .next ⟨w, resetBlock s⟩ := rfl

theorem exec_start_of_init (n : Nat) (iv : BitVec 8) {s : Block w} (h : s.phase = .init) :
    exec (.start n iv) ⟨w, s⟩ = .next ⟨w, latchConfig (BitVec.ofNat _ n) iv s⟩ := by
  unfold exec execStart
  exact onBlock_next (if_pos h)

theorem exec_eos_of_enabled {s : Block w} (h : s.inputEnabled = true) :
    exec .eos ⟨w, s⟩ = .next ⟨w, endStream s⟩ := by
  unfold exec execEos
  exact onBlock_next (if_pos h)

theorem latchConfig_phase_run_or_fault (nv : BitVec w.nvW) (iv : BitVec 8) (s : Block w) :
    (latchConfig nv iv s).phase = .run ∨ (latchConfig nv iv s).phase = .fault := by
  rw [latchConfig_phase]
  split
  · exact .inr rfl
  · exact .inl rfl

/-! ### What every other operation keeps -/

/-- The elements the control of the sequencer lives in (R22, R23, R29) are the same in the two states. -/
structure SameControl (s t : Block w) : Prop where
  phase_eq : t.phase = s.phase
  nv_eq : t.cfgNv = s.cfgNv
  iv_eq : t.cfgIv = s.cfgIv
  err_eq : t.err = s.err

theorem SameControl.refl (s : Block w) : SameControl s s := ⟨rfl, rfl, rfl, rfl⟩

theorem SameControl.trans {s t u : Block w} (h : SameControl s t) (k : SameControl t u) :
    SameControl s u :=
  ⟨k.phase_eq.trans h.phase_eq, k.nv_eq.trans h.nv_eq, k.iv_eq.trans h.iv_eq, k.err_eq.trans h.err_eq⟩

theorem completeRecord_sameControl {b : Byte} {s t : Block w} (h : completeRecord b s = .next t) :
    SameControl s t := by
  rcases completeRecord_cases h with ⟨_, rfl⟩ | ⟨_, _, _, ⟨_, rfl⟩ | ⟨_, rfl⟩⟩ <;>
    exact ⟨rfl, rfl, rfl, rfl⟩

theorem transferByte_sameControl {b : Byte} {s t : Block w} (h : transferByte b s = .next t) :
    SameControl s t := by
  obtain ⟨hphase, hnv, hiv, herr, _⟩ := transferByte_counters h
  exact ⟨hphase, hnv, hiv, herr⟩

theorem pushWhenEnabled_sameControl (k : OutTok w) (s : Block w) :
    SameControl s (pushWhenEnabled k s) := by
  rcases pushWhenEnabled_cases k s with ⟨_, h⟩ | ⟨_, h⟩ <;> rw [h] <;> exact ⟨rfl, rfl, rfl, rfl⟩

/-- Everything an operation can do to the phase, the latched configuration and the error bits. -/
theorem exec_control_cases {i : Instr} {s t : Block w} (h : exec i ⟨w, s⟩ = .next ⟨w, t⟩) :
    SameControl s t ∨ (i = .reset ∧ t = resetBlock s) ∨
    (∃ n iv, i = .start n iv ∧ s.phase = .init ∧ t = latchConfig (BitVec.ofNat _ n) iv s) ∨
    (i = .eos ∧ s.inputEnabled = true ∧ t = endStream s) := by
  cases i with
  | decode48Zero => cases h; exact .inl ⟨rfl, rfl, rfl, rfl⟩
  | decode48Normal e sgn m => cases h; exact .inl ⟨rfl, rfl, rfl, rfl⟩
  | byteStore b =>
    rcases execByteStore_cases h with ⟨_, _, hu⟩ | ⟨_, hu⟩ <;> cases hu
    · exact .inl ⟨rfl, rfl, rfl, rfl⟩
    · exact .inl (.refl s)
  | byteComplete b =>
    rcases execByteComplete_cases h with ⟨_, _, _, hc, hu⟩ | ⟨_, hu⟩ <;> cases hu
    · exact .inl ((⟨rfl, rfl, rfl, rfl⟩ : SameControl s (takeByte b s)).trans
        (completeRecord_sameControl hc))
    · exact .inl (.refl s)
  | eos =>
    rcases execEos_cases h with ⟨he, hu⟩ | ⟨_, hu⟩ <;> cases hu
    · exact .inr (.inr (.inr ⟨rfl, he, rfl⟩))
    · exact .inl (.refl s)
  | recLine p =>
    rcases execRecLine_cases h with ⟨_, _, _, _, _, _, _, h0, h1, h2, h3, h4, h5, hu⟩ | ⟨_, hu⟩ <;>
      cases hu
    · exact .inl <| (transferByte_sameControl h0).trans <| (transferByte_sameControl h1).trans <|
        (transferByte_sameControl h2).trans <| (transferByte_sameControl h3).trans <|
        (transferByte_sameControl h4).trans (transferByte_sameControl h5)
    · exact .inl (.refl s)
  | start n iv =>
    rcases execStart_cases h with ⟨hp, hu⟩ | ⟨_, hu⟩ <;> cases hu
    · exact .inr (.inr (.inl ⟨n, iv, rfl, hp, rfl⟩))
    · exact .inl (.refl s)
  | pop =>
    rcases execPop_cases h with ⟨_, hu⟩ | ⟨_, hu⟩ <;> cases hu
    · exact .inl ⟨rfl, rfl, rfl, rfl⟩
    · exact .inl (.refl s)
  | reset => cases h; exact .inr (.inl ⟨rfl, rfl⟩)
  | value sor eor reactor ticks col data => cases h; exact .inl (pushWhenEnabled_sameControl _ s)
  | endTok truncRecord truncRow reactor ticks col =>
    cases h; exact .inl (pushWhenEnabled_sameControl _ s)

/-! ### The port in_ready, and the legal configurations -/

theorem inReady_iff (s : Block w) (outReady : Bool) :
    s.inReady outReady = true ↔ s.phase = .run ∧ (s.oValid = false ∨ outReady = true) := by
  simp [Block.inReady]

theorem badNoDiVars_iff (nv : BitVec w.nvW) : badNoDiVars nv = true ↔ nv.toNat = 0 := by
  rw [badNoDiVars, Bool.not_eq_true', ← Bool.not_eq_true, legalNoDiVars_iff]
  omega

theorem badInterval_iff (iv : BitVec 8) : badInterval iv = true ↔ iv.toNat ∉ [10, 15, 30] := by
  simp [badInterval, legalInterval, Config.intervals]

theorem dataPerDay_of_bad {iv : BitVec 8} (h : badInterval iv = true) : dataPerDay iv = none := by
  have hl : legalInterval iv = false := by simpa [badInterval] using h
  simp [dataPerDay, hl]

/-! ### The obligations -/

/-- The clause of R22 that leaves no other transition. -/
theorem exec_phase_cases {i : Instr} {s t : Block w} (h : exec i ⟨w, s⟩ = .next ⟨w, t⟩) :
    t.phase = s.phase ∨ (i = .reset ∧ t.phase = .init) ∨
    (s.phase = .init ∧ (t.phase = .run ∨ t.phase = .fault) ∧ ∃ nodivars iv, i = .start nodivars iv) ∨
    (s.phase = .run ∧ t.phase = .done ∧ i = .eos) := by
  rcases exec_control_cases h with hk | ⟨hi, rfl⟩ | ⟨n, iv, hi, hp, rfl⟩ | ⟨hi, he, rfl⟩
  · exact .inl hk.phase_eq
  · exact .inr (.inl ⟨hi, resetBlock_phase s⟩)
  · exact .inr (.inr (.inl ⟨hp, latchConfig_phase_run_or_fault _ iv s, n, iv, hi⟩))
  · exact .inr (.inr (.inr ⟨((inputEnabled_iff s).1 he).1, endStream_phase s, hi⟩))

/-- The clause of R23 that leaves no other writer. -/
theorem exec_config_cases {i : Instr} {s t : Block w} (h : exec i ⟨w, s⟩ = .next ⟨w, t⟩) :
    (t.cfgNv = s.cfgNv ∧ t.cfgIv = s.cfgIv) ∨ i = .reset ∨
    (s.phase = .init ∧ ∃ nodivars iv, i = .start nodivars iv) := by
  rcases exec_control_cases h with hk | ⟨hi, _⟩ | ⟨n, iv, hi, hp, _⟩ | ⟨_, _, rfl⟩
  · exact .inl ⟨hk.nv_eq, hk.iv_eq⟩
  · exact .inr (.inl hi)
  · exact .inr (.inr ⟨hp, n, iv, hi⟩)
  · exact .inl ⟨endStream_cfgNv s, endStream_cfgIv s⟩

/-- Settles O39, by cases on the operation (`exec_control_cases`); the last clause is the invariant's own for
FAULT. -/
theorem phaseTransitions : Obligations.PhaseTransitions := by
  refine ⟨⟨rfl, rfl, rfl, rfl⟩, fun w => ⟨fun i s t h => exec_phase_cases h, ?_, ?_, ?_, ?_, ?_, ?_⟩⟩
  · exact fun s => ⟨_, exec_reset s, resetBlock_phase s⟩
  · exact fun n iv s hp => ⟨_, exec_start_of_init n iv hp, latchConfig_phase_run_or_fault _ iv s⟩
  · exact fun s hp hv =>
      ⟨_, exec_eos_of_enabled ((inputEnabled_iff s).2 ⟨hp, hv⟩), endStream_phase s⟩
  · exact fun s outReady h => ((inReady_iff s outReady).1 h).1
  · exact fun s outReady hp hv => (inReady_iff s outReady).2 ⟨hp, .inl hv⟩
  · intro s hinv hp
    obtain ⟨huntouched, _⟩ := hinv.fault hp
    exact huntouched.valid_eq

/-- Settles O40, by cases on the operation (`exec_control_cases`). -/
theorem configurationWrittenByStartAndReset : Obligations.ConfigurationWrittenByStartAndReset := by
  refine ⟨fun w => ⟨?_, ?_, fun i s t h => exec_config_cases h, badNoDiVars_iff⟩,
    badInterval_iff, rfl, rfl, rfl, fun iv => dataPerDay_of_bad⟩
  · intro nv iv s hp
    refine ⟨_, exec_start_of_init nv.toNat iv hp, ?_, latchConfig_cfgIv _ iv s⟩
    rw [latchConfig_cfgNv, BitVec.ofNat_toNat, BitVec.setWidth_eq]
  · exact fun s => ⟨_, exec_reset s, resetBlock_cfgNv s, resetBlock_cfgIv s⟩

/-- Settles O17: R33's table is `Block.reset`, the register `sr` entry by entry. -/
theorem resetStateValues : Obligations.ResetStateValues := by
  intro w
  have hsr : ∀ i : Fin 5, (Block.reset w).sr[i] = 0x00#8 := fun i => Vector.getElem_replicate i.isLt
  exact ⟨rfl, rfl, rfl, hsr, rfl, rfl, rfl, rfl, rfl, rfl, rfl, rfl⟩

end Sys2Proof.Machine
end

section
/-! The statement of 30_encoding.md about the fields of a PackedReal (R61). The model numbers the mantissa bits from
the least significant end and R61 from the most significant one; the weights are those of a binary fraction, which
hold at every width. -/

namespace Sys2Proof.Machine

/-! ### The mantissa counted from its most significant bit -/

/-- R61's table: bits 0 to 6 lie in byte 5, and the next four groups of eight in bytes 4, 3, 2 and 1. -/
theorem mantissaField_getLsbD_of_top (p : PackedReal) {i : Nat} (hi : i < 39) :
    (mantissaField p).getLsbD (38 - i) =
      p.getLsbD (if i < 7 then 6 - i else if i < 15 then 15 - (i - 7)
        else if i < 23 then 23 - (i - 15) else if i < 31 then 31 - (i - 23) else 39 - (i - 31)) := by
  have hlast : decide (38 - i - 32 < 7) = true := decide_eq_true (by omega)
  rw [mantissaField_getLsbD, hlast, Bool.true_and]
  have hgroup : i < 7 ∨ (7 ≤ i ∧ i < 15) ∨ (15 ≤ i ∧ i < 23) ∨ (23 ≤ i ∧ i < 31) ∨ 31 ≤ i := by omega
  rcases hgroup with h | h | h | h | h <;> grind

/-! ### The value of a binary fraction -/

/-- The binary fraction of `n` bits whose bit `n - 1 - i` is worth `2^-(i+1)`. The top bit is worth one half, and
each bit below it half of what it is worth in the fraction without the top bit. -/
theorem sum_bitWeights (x n : Nat) :
    ((List.range n).map fun i => if x.testBit (n - 1 - i) then (1 : ℚ) / 2 ^ (i + 1) else 0).sum =
      ((x % 2 ^ n : Nat) : ℚ) / 2 ^ n := by
  induction n with
  | zero => simp [Nat.mod_one]
  | succ n ih =>
    have htop : (if x.testBit n then (1 : ℚ) / 2 ^ (0 + 1) else 0) = ((x.testBit n).toNat : ℚ) / 2 := by
      cases x.testBit n <;> simp
    have hhalf : ∀ i, (if x.testBit (n - (i + 1)) then (1 : ℚ) / 2 ^ (i + 1 + 1) else 0) =
        1 / 2 * if x.testBit (n - 1 - i) then (1 : ℚ) / 2 ^ (i + 1) else 0 := by
      intro i
      rw [Nat.sub_add_eq, Nat.sub_right_comm, pow_succ 2 (i + 1)]
      split <;> ring
    have hmod : x % 2 ^ (n + 1) = x % 2 ^ n + 2 ^ n * (x.testBit n).toNat := by
      rw [Nat.mod_pow_succ, Nat.toNat_testBit]
    rw [List.range_succ_eq_map, List.map_cons, List.map_map, List.sum_cons, hmod]
    simp only [Function.comp_def, Nat.succ_eq_add_one, Nat.add_sub_cancel, Nat.sub_zero, hhalf,
      List.sum_map_mul_left, ih]
    rw [htop]
    push_cast
    field_simp
    ring

theorem mantissaValue_eq_sum (m : BitVec 39) :
    mantissaValue m =
      ((List.range 39).map fun i => if m.getLsbD (38 - i) then (1 : ℚ) / 2 ^ (i + 1) else 0).sum := by
  have hsum := sum_bitWeights m.toNat 39
  rw [Nat.mod_eq_of_lt m.isLt] at hsum
  exact hsum.symm

/-! ### The obligation -/

/-- Settles O5: the places from the bit lemmas of the fields, the weights from `sum_bitWeights`. -/
theorem fieldAssembly : Obligations.FieldAssembly := by
  refine ⟨fun p => ⟨?_, rfl, ?_, mantissaValue_eq_sum _⟩, by decide, by decide, by decide⟩
  · intro k hk
    rw [exponentField_getLsbD, decide_eq_true hk, Bool.true_and]
  · exact fun i hi => mantissaField_getLsbD_of_top p hi

end Sys2Proof.Machine
end

section
/-! The statements of 40_decode.md about DECODE48 (R80 to R94). A pattern and its result are each a row of fields, so
what a rule says about bits is a fact about fields; what it says about values is a fact about the magnitude, of which
the sign is the last step (R87). -/

namespace Sys2Proof.Machine

/-! ### A pattern is its fields -/

theorem ne_zero_iff_fields {p : PackedReal} :
    p ≠ 0 ↔ ¬(exponentField p = 0 ∧ signField p = false ∧ mantissaField p = 0) := by
  rw [← assembleReal_eq_zero, assembleReal_fields]

theorem eq_of_fields_eq {p q : PackedReal} (he : exponentField p = exponentField q)
    (hs : signField p = signField q) (hm : mantissaField p = mantissaField q) : p = q := by
  rw [← assembleReal_fields p, ← assembleReal_fields q, he, hs, hm]

theorem ne_zero_of_signField {p : PackedReal} (h : signField p = true) : p ≠ 0 := by
  rw [ne_zero_iff_fields, h]
  exact fun hz => Bool.noConfusion hz.2.1

/-- The mantissa lies in the low 40 bits of a pattern, without the sign bit. -/
theorem mantissaField_congr {p q : PackedReal}
    (h : ∀ k, k < 40 → k ≠ 7 → p.getLsbD k = q.getLsbD k) : mantissaField p = mantissaField q := by
  apply BitVec.eq_of_getLsbD_eq
  intro k hk
  rw [mantissaField_getLsbD, mantissaField_getLsbD]
  grind

/-! ### The biased exponent (R83) -/

theorem biasOffset_toNat (e : BitVec 8) : (biasOffset e).toNat = e.toNat + 894 := by
  unfold biasOffset
  bv_omega

theorem trueExponent_eq (e : BitVec 8) : trueExponent e = (e.toNat : Int) - 129 := rfl

theorem biasOffset_ne_zero (e : BitVec 8) : biasOffset e ≠ 0 := by
  have := biasOffset_toNat e
  bv_omega

theorem biasOffset_ne_max (e : BitVec 8) : biasOffset e ≠ 2047 := by
  have := biasOffset_toNat e
  bv_omega

theorem biasOffset_injective {e f : BitVec 8} (h : biasOffset e = biasOffset f) : e = f := by
  have he := biasOffset_toNat e
  have hf := biasOffset_toNat f
  rw [h] at he
  exact BitVec.eq_of_toNat_eq (by omega)

/-- The range of R83 is all that the addition reaches. -/
theorem exists_biasOffset_iff (x : BitVec 11) :
    (∃ e, biasOffset e = x) ↔ 894#11 ≤ x ∧ x ≤ 1149#11 := by
  constructor
  · rintro ⟨e, rfl⟩
    have := biasOffset_toNat e
    bv_omega
  · rintro ⟨hlo, hhi⟩
    refine ⟨(x - 894#11).setWidth 8, BitVec.eq_of_toNat_eq ?_⟩
    rw [biasOffset_toNat]
    bv_omega

/-! ### The fields of a packed result (R88) -/

@[simp] theorem packBinary64_sign (s : Bool) (x : BitVec 11) (m : BitVec 39) :
    (packBinary64 s x m).getLsbD 63 = s := by
  rw [packBinary64_getLsbD]
  exact Bool.true_and s

@[simp] theorem packBinary64_exponent (s : Bool) (x : BitVec 11) (m : BitVec 39) :
    (packBinary64 s x m).extractLsb' 52 11 = x := by
  apply BitVec.eq_of_getLsbD_eq
  intro k hk
  rw [BitVec.getLsbD_extractLsb', packBinary64_getLsbD]
  grind

theorem packBinary64_fraction (s : Bool) (x : BitVec 11) (m : BitVec 39) :
    (packBinary64 s x m).extractLsb' 0 52 = m ++ 0#13 := by
  apply BitVec.eq_of_getLsbD_eq
  intro k hk
  rw [BitVec.getLsbD_extractLsb', packBinary64_getLsbD, BitVec.getLsbD_append, BitVec.getLsbD_zero]
  grind

theorem packBinary64_fraction_toNat (s : Bool) (x : BitVec 11) (m : BitVec 39) :
    ((packBinary64 s x m).extractLsb' 0 52).toNat = m.toNat * 2 ^ 13 := by
  rw [packBinary64_fraction, BitVec.toNat_append, BitVec.toNat_zero, Nat.or_zero, Nat.shiftLeft_eq]

@[simp] theorem packBinary64_low (s : Bool) (x : BitVec 11) (m : BitVec 39) :
    (packBinary64 s x m).extractLsb' 0 13 = 0 := by
  apply BitVec.eq_of_getLsbD_eq
  intro k hk
  rw [BitVec.getLsbD_extractLsb', packBinary64_getLsbD]
  simp [hk]

theorem packBinary64_injective {s t : Bool} {x y : BitVec 11} {m n : BitVec 39}
    (h : packBinary64 s x m = packBinary64 t y n) : s = t ∧ x = y ∧ m = n := by
  have hs := packBinary64_sign s x m
  have hx := packBinary64_exponent s x m
  have hm := packBinary64_fraction_toNat s x m
  rw [h, packBinary64_sign] at hs
  rw [h, packBinary64_exponent] at hx
  rw [h, packBinary64_fraction_toNat] at hm
  exact ⟨hs.symm, hx.symm, BitVec.eq_of_toNat_eq (by omega)⟩

theorem packBinary64_flipSign (s : Bool) (x : BitVec 11) (m : BitVec 39) :
    packBinary64 (!s) x m = packBinary64 s x m ^^^ 0x8000000000000000#64 := by
  apply BitVec.eq_of_getLsbD_eq
  intro k hk
  rw [show 0x8000000000000000#64 = BitVec.twoPow 64 63 from rfl, BitVec.getLsbD_xor,
    BitVec.getLsbD_twoPow, packBinary64_getLsbD, packBinary64_getLsbD]
  cases s <;> grind

/-- R65 on a packed word that is neither subnormal nor an infinity or a NaN: nothing is rounded. -/
theorem binary64Value_packBinary64 (s : Bool) {x : BitVec 11} (m : BitVec 39) (h0 : x ≠ 0)
    (hmax : x ≠ 2047) :
    binary64Value (packBinary64 s x m) =
      some ((if s then -1 else 1) * (1 + mantissaValue m) * (2 : ℚ) ^ ((x.toNat : Int) - 1023)) := by
  have h0' : x.toNat ≠ 0 := by bv_omega
  have hmax' : x.toNat ≠ 2047 := by bv_omega
  have hfraction : ((m.toNat * 2 ^ 13 : Nat) : ℚ) / 2 ^ 52 = mantissaValue m := by
    unfold mantissaValue
    push_cast
    ring
  unfold binary64Value
  simp only [packBinary64_sign, packBinary64_exponent, packBinary64_fraction_toNat, if_neg h0',
    if_neg hmax', hfraction]

/-! ### The result, field by field -/

theorem decode48_getLsbD_sign (p : PackedReal) : (decode48 p).getLsbD 63 = p.getLsbD 7 := by
  by_cases h : p = 0
  · subst h; rfl
  · rw [decode48_of_ne h, packBinary64_sign]
    rfl

theorem decode48_exponent {p : PackedReal} (h : p ≠ 0) :
    (decode48 p).extractLsb' 52 11 = biasOffset (exponentField p) := by
  rw [decode48_of_ne h, packBinary64_exponent]

theorem decode48_low (p : PackedReal) : (decode48 p).extractLsb' 0 13 = 0 := by
  by_cases h : p = 0
  · subst h; rfl
  · rw [decode48_of_ne h, packBinary64_low]

/-- A word whose exponent field is 0 (either zero, or a subnormal) is not the result of a non-zero pattern. -/
theorem decode48_ne_of_exponent_zero {p : PackedReal} {d : Binary64} (h : p ≠ 0)
    (hd : d.extractLsb' 52 11 = 0) : decode48 p ≠ d := by
  rintro rfl
  exact biasOffset_ne_zero _ (decode48_exponent h ▸ hd)

theorem decode48_eq_zero_iff (p : PackedReal) : decode48 p = 0 ↔ p = 0 := by
  constructor
  · intro hd
    by_contra h
    exact decode48_ne_of_exponent_zero h (by decide) hd
  · rintro rfl
    exact decode48_zero

theorem decode48_ne_negativeZero (p : PackedReal) : decode48 p ≠ 0x8000000000000000 := by
  by_cases h : p = 0
  · subst h; decide
  · exact decode48_ne_of_exponent_zero h (by decide)

/-- The two kinds of result of R91. -/
theorem decode48_zero_or_normal (p : PackedReal) :
    decode48 p = 0 ∨
      (894 ≤ ((decode48 p).extractLsb' 52 11).toNat ∧ ((decode48 p).extractLsb' 52 11).toNat ≤ 1149 ∧
        (decode48 p).extractLsb' 0 13 = 0) := by
  by_cases h : p = 0
  · exact .inl ((decode48_eq_zero_iff p).2 h)
  · have hlt := (exponentField p).isLt
    rw [decode48_exponent h, biasOffset_toNat]
    exact .inr ⟨by omega, by omega, decode48_low p⟩

theorem decode48_injective {p q : PackedReal} (h : decode48 p = decode48 q) : p = q := by
  by_cases hp : p = 0
  · rw [hp, decode48_zero] at h
    rw [hp, (decode48_eq_zero_iff q).1 h.symm]
  · have hq : q ≠ 0 := fun hq => hp ((decode48_eq_zero_iff p).1 (by rw [h, hq, decode48_zero]))
    rw [decode48_of_ne hp, decode48_of_ne hq] at h
    obtain ⟨hs, hx, hm⟩ := packBinary64_injective h
    exact eq_of_fields_eq (biasOffset_injective hx) hs hm

/-- `+2^-129` is the word that the zero-check takes away from the image (R94). -/
theorem packBinary64_eq_missing_iff (e : BitVec 8) (s : Bool) (m : BitVec 39) :
    packBinary64 s (biasOffset e) m = 0x37e0000000000000 ↔ assembleReal e s m = 0 := by
  rw [assembleReal_eq_zero,
    show (0x37e0000000000000 : Binary64) = packBinary64 false (biasOffset 0) 0 by decide]
  constructor
  · intro h
    obtain ⟨hs, hx, hm⟩ := packBinary64_injective h
    exact ⟨biasOffset_injective hx, hs, hm⟩
  · rintro ⟨rfl, rfl, rfl⟩
    rfl

/-- R94's image. The two directions are the two ways between a pattern and its fields. -/
theorem exists_decode48_eq_iff (d : Binary64) :
    (∃ p : PackedReal, p ≠ 0 ∧ decode48 p = d) ↔
      ∃ (sgn : Bool) (x : BitVec 11) (m : BitVec 39), 894#11 ≤ x ∧ x ≤ 1149#11 ∧
        d = packBinary64 sgn x m ∧ d ≠ 0x37e0000000000000 := by
  constructor
  · rintro ⟨p, hp, rfl⟩
    obtain ⟨hlo, hhi⟩ := (exists_biasOffset_iff _).1 ⟨exponentField p, rfl⟩
    refine ⟨signField p, _, mantissaField p, hlo, hhi, decode48_of_ne hp, ?_⟩
    rwa [decode48_of_ne hp, Ne, packBinary64_eq_missing_iff, assembleReal_fields]
  · rintro ⟨sgn, x, m, hlo, hhi, rfl, hd⟩
    obtain ⟨e, rfl⟩ := (exists_biasOffset_iff x).2 ⟨hlo, hhi⟩
    have hp : assembleReal e sgn m ≠ 0 := by rwa [Ne, packBinary64_eq_missing_iff] at hd
    refine ⟨assembleReal e sgn m, hp, ?_⟩
    rw [decode48_of_ne hp, exponentField_assembleReal, signField_assembleReal,
      mantissaField_assembleReal]

/-! ### The value -/

theorem mantissaValue_nonneg (m : BitVec 39) : 0 ≤ mantissaValue m := by
  unfold mantissaValue
  positivity

theorem mantissaValue_le (m : BitVec 39) : mantissaValue m ≤ 1 - 1 / 2 ^ 39 := by
  have hm : (m.toNat : ℚ) ≤ 2 ^ 39 - 1 := by
    have hlt : m.toNat + 1 ≤ 2 ^ 39 := m.isLt
    exact le_sub_iff_add_le.2 (by exact_mod_cast hlt)
  unfold mantissaValue
  linarith

theorem le_mantissaValue {m : BitVec 39} (h : m ≠ 0) : 1 / 2 ^ 39 ≤ mantissaValue m := by
  have hm : 1 ≤ m.toNat := by bv_omega
  have hm' : (1 : ℚ) ≤ m.toNat := Nat.one_le_cast.2 hm
  unfold mantissaValue
  gcongr

/-- R86 at given fields: what the corner patterns are evaluated with. -/
theorem magnitudeValue_of_fields {p : PackedReal} {e : BitVec 8} {m : BitVec 39}
    (he : exponentField p = e) (hm : mantissaField p = m) :
    magnitudeValue p = (1 + mantissaValue m) * (2 : ℚ) ^ ((e.toNat : Int) - 129) := by
  subst he hm
  rfl

theorem magnitudeValue_pos (p : PackedReal) : 0 < magnitudeValue p := by
  have := mantissaValue_nonneg (mantissaField p)
  unfold magnitudeValue
  positivity

theorem le_magnitudeValue (p : PackedReal) : (2 : ℚ) ^ (-129 : Int) ≤ magnitudeValue p := by
  rw [magnitudeValue_of_fields rfl rfl]
  have hm := mantissaValue_nonneg (mantissaField p)
  calc (2 : ℚ) ^ (-129 : Int) ≤ 2 ^ (((exponentField p).toNat : Int) - 129) :=
        zpow_le_zpow_right₀ one_le_two (by omega)
    _ ≤ _ := le_mul_of_one_le_left (by positivity) (by linarith)

theorem magnitudeValue_le (p : PackedReal) :
    magnitudeValue p ≤ (2 - 1 / 2 ^ 39) * (2 : ℚ) ^ (126 : Int) := by
  rw [magnitudeValue_of_fields rfl rfl]
  have hm := mantissaValue_le (mantissaField p)
  have he : ((exponentField p).toNat : Int) - 129 ≤ 126 := by
    have := (exponentField p).isLt
    omega
  exact mul_le_mul (by linarith) (zpow_le_zpow_right₀ one_le_two he) (by positivity) (by norm_num)

/-- The least magnitude but one: either the fraction is not 0, or the exponent is at least one greater. -/
theorem le_magnitudeValue_of_ne {p : PackedReal} (h : ¬(exponentField p = 0 ∧ mantissaField p = 0)) :
    (1 + 1 / 2 ^ 39) * (2 : ℚ) ^ (-129 : Int) ≤ magnitudeValue p := by
  rw [magnitudeValue_of_fields rfl rfl]
  have hm := mantissaValue_nonneg (mantissaField p)
  by_cases he : exponentField p = 0
  · have hm' := le_mantissaValue fun hm' => h ⟨he, hm'⟩
    exact mul_le_mul (by linarith) (zpow_le_zpow_right₀ one_le_two (by omega)) (by positivity)
      (by linarith)
  · have he' : 1 ≤ (exponentField p).toNat := by bv_omega
    calc (1 + 1 / 2 ^ 39) * (2 : ℚ) ^ (-129 : Int) ≤ 2 ^ (-128 : Int) := by norm_num
      _ ≤ 2 ^ (((exponentField p).toNat : Int) - 129) :=
        zpow_le_zpow_right₀ one_le_two (by omega)
      _ ≤ _ := le_mul_of_one_le_left (by positivity) (by linarith)

@[simp] theorem decode48Value_zero : decode48Value 0 = 0 := rfl

theorem decode48Value_of_ne {p : PackedReal} (h : p ≠ 0) :
    decode48Value p = if signField p then -magnitudeValue p else magnitudeValue p :=
  if_neg h

theorem decode48Value_of_positive {p : PackedReal} (h : p ≠ 0) (hs : signField p = false) :
    decode48Value p = magnitudeValue p := by
  rw [decode48Value_of_ne h, hs]
  rfl

theorem decode48Value_of_negative {p : PackedReal} (hs : signField p = true) :
    decode48Value p = -magnitudeValue p := by
  rw [decode48Value_of_ne (ne_zero_of_signField hs), hs]
  rfl

theorem decode48Value_eq_sign_mul {p : PackedReal} (h : p ≠ 0) :
    decode48Value p = (if signField p then -1 else 1) * magnitudeValue p := by
  rw [decode48Value_of_ne h]
  split
  · rw [neg_one_mul]
  · rw [one_mul]

/-- What a pattern can mean: nothing, a positive magnitude or a negative one. -/
theorem decode48Value_cases (p : PackedReal) :
    (p = 0 ∧ decode48Value p = 0) ∨
    (p ≠ 0 ∧ signField p = false ∧ decode48Value p = magnitudeValue p) ∨
    (signField p = true ∧ decode48Value p = -magnitudeValue p) := by
  by_cases h : p = 0
  · exact .inl ⟨h, if_pos h⟩
  · cases hs : signField p with
    | false => exact .inr (.inl ⟨h, rfl, decode48Value_of_positive h hs⟩)
    | true => exact .inr (.inr ⟨rfl, decode48Value_of_negative hs⟩)

theorem abs_decode48Value {p : PackedReal} (h : p ≠ 0) : |decode48Value p| = magnitudeValue p := by
  have hpos := magnitudeValue_pos p
  rw [decode48Value_of_ne h]
  split
  · rw [abs_neg, abs_of_pos hpos]
  · exact abs_of_pos hpos

/-- The range of magnitudes of R91. -/
theorem abs_decode48Value_zero_or_range (p : PackedReal) :
    |decode48Value p| = 0 ∨
      ((2 : ℚ) ^ (-129 : Int) ≤ |decode48Value p| ∧
        |decode48Value p| ≤ (2 - 1 / 2 ^ 39) * (2 : ℚ) ^ (126 : Int)) := by
  by_cases h : p = 0
  · rw [h, decode48Value_zero, abs_zero]
    exact .inl rfl
  · rw [abs_decode48Value h]
    exact .inr ⟨le_magnitudeValue p, magnitudeValue_le p⟩

theorem abs_decode48Value_le (p : PackedReal) :
    |decode48Value p| ≤ (2 - 1 / 2 ^ 39) * (2 : ℚ) ^ (126 : Int) := by
  rcases abs_decode48Value_zero_or_range p with h | ⟨-, h⟩
  · rw [h]
    norm_num
  · exact h

theorem binary64Value_decode48 (p : PackedReal) :
    binary64Value (decode48 p) = some (decode48Value p) := by
  by_cases h : p = 0
  · subst h
    rw [decode48_zero, decode48Value_zero]
    simp [binary64Value]
  · have hexp : ((biasOffset (exponentField p)).toNat : Int) - 1023 = trueExponent (exponentField p) := by
      rw [biasOffset_toNat, trueExponent_eq]
      omega
    rw [decode48_of_ne h, binary64Value_packBinary64 _ _ (biasOffset_ne_zero _) (biasOffset_ne_max _),
      hexp, decode48Value_eq_sign_mul h, mul_assoc]
    rfl

/-! ### The corner patterns -/

/-- The sign bit alone takes the normal path: `-2^-129` (R81). -/
theorem decode48Value_signOnly : decode48Value 0x000000000080 = -(2 : ℚ) ^ (-129 : Int) := by
  rw [decode48Value_of_negative (by decide),
    magnitudeValue_of_fields (e := 0#8) (m := 0#39) (by decide) (by decide)]
  norm_num [mantissaValue]

theorem decode48Value_smallestPositive :
    decode48Value 0x000100000000 = (1 + 1 / 2 ^ 39) * (2 : ℚ) ^ (-129 : Int) := by
  rw [decode48Value_of_positive (by decide) (by decide),
    magnitudeValue_of_fields (e := 0#8) (m := 1#39) (by decide) (by decide)]
  norm_num [mantissaValue]

theorem decode48Value_largest :
    decode48Value 0xffffffffff7f = (2 - 1 / 2 ^ 39) * (2 : ℚ) ^ (126 : Int) := by
  rw [decode48Value_of_positive (by decide) (by decide),
    magnitudeValue_of_fields (e := 255#8) (m := 0x7fffffffff#39) (by decide) (by decide)]
  norm_num [mantissaValue]

theorem decode48Value_mostNegative :
    decode48Value 0xffffffffffff = -((2 - 1 / 2 ^ 39) * (2 : ℚ) ^ (126 : Int)) := by
  rw [decode48Value_of_negative (by decide),
    magnitudeValue_of_fields (e := 255#8) (m := 0x7fffffffff#39) (by decide) (by decide)]
  norm_num [mantissaValue]

theorem decode48Value_minusOne : decode48Value 0x810000000080 = -1 := by
  rw [decode48Value_of_negative (by decide),
    magnitudeValue_of_fields (e := 129#8) (m := 0#39) (by decide) (by decide)]
  norm_num [mantissaValue]

/-- The all-zero pattern with byte 0 incremented: not twice 0, so R93 has to exclude it. -/
theorem decode48Value_exponentOne : decode48Value 0x010000000000 = (2 : ℚ) ^ (-128 : Int) := by
  rw [decode48Value_of_positive (by decide) (by decide),
    magnitudeValue_of_fields (e := 1#8) (m := 0#39) (by decide) (by decide)]
  norm_num [mantissaValue]

theorem smallestPositive_le {p : PackedReal} (h : 0 < decode48Value p) :
    decode48Value 0x000100000000 ≤ decode48Value p := by
  rw [decode48Value_smallestPositive]
  have hpos := magnitudeValue_pos p
  rcases decode48Value_cases p with ⟨-, hv⟩ | ⟨hp, hs, hv⟩ | ⟨-, hv⟩
  · exact absurd hv h.ne'
  · rw [hv]
    exact le_magnitudeValue_of_ne fun hz => ne_zero_iff_fields.1 hp ⟨hz.1, hs, hz.2⟩
  · linarith

theorem le_signOnly {p : PackedReal} (h : decode48Value p < 0) :
    decode48Value p ≤ decode48Value 0x000000000080 := by
  rw [decode48Value_signOnly]
  have hpos := magnitudeValue_pos p
  rcases decode48Value_cases p with ⟨-, hv⟩ | ⟨-, -, hv⟩ | ⟨-, hv⟩
  · exact absurd hv h.ne
  · linarith
  · rw [hv]
    exact neg_le_neg (le_magnitudeValue p)

/-! ### Flipping the sign (R92) -/

/-- The mask of R92 is bit 7 of byte 5. -/
theorem flipSign_getLsbD (p : PackedReal) (k : Nat) :
    (p ^^^ 0x000000000080#48).getLsbD k = (p.getLsbD k ^^ decide (7 = k)) := by
  rw [show 0x000000000080#48 = BitVec.twoPow 48 7 from rfl, BitVec.getLsbD_xor, BitVec.getLsbD_twoPow]
  rfl

theorem flipSign_getLsbD_of_ne (p : PackedReal) {k : Nat} (h : k ≠ 7) :
    (p ^^^ 0x000000000080#48).getLsbD k = p.getLsbD k := by
  rw [flipSign_getLsbD, decide_eq_false h.symm, Bool.xor_false]

theorem exponentField_flipSign (p : PackedReal) :
    exponentField (p ^^^ 0x000000000080#48) = exponentField p := by
  apply BitVec.eq_of_getLsbD_eq
  intro k _
  rw [exponentField_getLsbD, exponentField_getLsbD, flipSign_getLsbD_of_ne p (by omega)]

theorem signField_flipSign (p : PackedReal) :
    signField (p ^^^ 0x000000000080#48) = !signField p := by
  unfold signField
  rw [flipSign_getLsbD, decide_eq_true rfl, Bool.xor_true]

theorem mantissaField_flipSign (p : PackedReal) :
    mantissaField (p ^^^ 0x000000000080#48) = mantissaField p :=
  mantissaField_congr fun _ _ h7 => flipSign_getLsbD_of_ne p h7

theorem magnitudeValue_flipSign (p : PackedReal) :
    magnitudeValue (p ^^^ 0x000000000080#48) = magnitudeValue p := by
  unfold magnitudeValue
  rw [exponentField_flipSign, mantissaField_flipSign]

/-- The one pattern that the flip takes to the all-zero pattern is the mask. -/
theorem flipSign_ne_zero {p : PackedReal} (h : p ≠ 0x000000000080) : p ^^^ 0x000000000080#48 ≠ 0 :=
  fun hz => h (BitVec.xor_eq_zero_iff.1 hz)

/-! ### Incrementing byte 0 (R93) -/

theorem exponentField_toNat (p : PackedReal) : (exponentField p).toNat = p.toNat / 2 ^ 40 := by
  have hlt : p.toNat / 2 ^ 40 < 2 ^ 8 := Nat.div_lt_of_lt_mul p.isLt
  rw [exponentField, BitVec.extractLsb'_toNat, Nat.shiftRight_eq_div_pow, Nat.mod_eq_of_lt hlt]

/-- Byte 0 has room for the increment, so that nothing is carried out of the pattern. -/
theorem exponentField_increment {p : PackedReal} (h : exponentField p ≠ 255) :
    (exponentField (p + 0x010000000000#48)).toNat = (exponentField p).toNat + 1 := by
  have h255 : (exponentField p).toNat ≠ 255 := fun h' => h (BitVec.eq_of_toNat_eq h')
  rw [exponentField_toNat] at h255
  have hroom : p.toNat + 2 ^ 40 < 2 ^ 48 := by
    have := p.isLt
    omega
  have hsum : (p + 0x010000000000#48).toNat = p.toNat + 2 ^ 40 := BitVec.toNat_add_of_lt hroom
  rw [exponentField_toNat, exponentField_toNat, hsum, Nat.add_div_right _ (by decide)]

theorem increment_getLsbD (p : PackedReal) {k : Nat} (hk : k < 40) :
    (p + 0x010000000000#48).getLsbD k = p.getLsbD k := by
  have hsum : (p + 0x010000000000#48).toNat = (p.toNat + 2 ^ 40) % 2 ^ 48 := BitVec.toNat_add _ _
  have hlow : (p.toNat + 2 ^ 40) % 2 ^ 48 % 2 ^ 40 = p.toNat % 2 ^ 40 := by omega
  have hbit : ∀ n : Nat, n.testBit k = (n % 2 ^ 40).testBit k := fun n => by
    rw [Nat.testBit_mod_two_pow, decide_eq_true hk, Bool.true_and]
  unfold BitVec.getLsbD
  rw [hsum, hbit, hlow, ← hbit]

theorem signField_increment (p : PackedReal) :
    signField (p + 0x010000000000#48) = signField p :=
  increment_getLsbD p (by decide)

theorem mantissaField_increment (p : PackedReal) :
    mantissaField (p + 0x010000000000#48) = mantissaField p :=
  mantissaField_congr fun _ hk _ => increment_getLsbD p hk

theorem magnitudeValue_increment {p : PackedReal} (h : exponentField p ≠ 255) :
    magnitudeValue (p + 0x010000000000#48) = 2 * magnitudeValue p := by
  rw [magnitudeValue_of_fields rfl rfl, magnitudeValue_of_fields (p := p) rfl rfl,
    mantissaField_increment, exponentField_increment h, Nat.cast_add, Nat.cast_one,
    add_sub_right_comm, zpow_add_one₀ two_ne_zero]
  ring

theorem increment_ne_zero {p : PackedReal} (h : exponentField p ≠ 255) :
    p + 0x010000000000#48 ≠ 0 := by
  rw [ne_zero_iff_fields]
  rintro ⟨he, -, -⟩
  have hinc := exponentField_increment h
  rw [he] at hinc
  exact Nat.succ_ne_zero _ hinc.symm

/-! ### The obligations -/

/-- Settles O8: each part is a fact about the result of the normal path, whose exponent is never 0. -/
theorem zeroCheckHasPriority : Obligations.ZeroCheckHasPriority := by
  refine ⟨fun p => ⟨zeroCheck_iff p, ?_, decode48_ne_negativeZero p⟩, by decide,
    decode48Value_signOnly, by decide, decode48Value_smallestPositive⟩
  exact fun h => (decode48_eq_zero_iff p).2 ((zeroCheck_iff p).1 h)

/-- Settles O9, from `biasOffset_toNat`: the addition has room for every byte. -/
theorem biasOffsetIsExact : Obligations.BiasOffsetIsExact := by
  refine ⟨fun e => ?_, fun p => decode48_exponent, by decide, by decide, by decide, by decide⟩
  have hx := biasOffset_toNat e
  have he := trueExponent_eq e
  have hlt := e.isLt
  exact ⟨he, by omega, by omega, hx, by omega, by omega, by omega, biasOffset_ne_zero e,
    biasOffset_ne_max e⟩

/-- Settles O11: bit 63 is the sign field, and the value is the magnitude with the sign applied. -/
theorem signNegatesMagnitude : Obligations.SignNegatesMagnitude :=
  ⟨fun p => ⟨decode48_getLsbD_sign p, decode48Value_of_ne, ne_zero_of_signField⟩, by decide,
    decode48Value_signOnly, by decide, decode48Value_minusOne⟩

/-- Settles O12: the bits and the value are each the definition's own form, and `binary64Value_decode48` is their
agreement. -/
theorem resultBitsHaveTheExactValue : Obligations.ResultBitsHaveTheExactValue := by
  refine ⟨fun p => ?_, fun p h => ?_, decode48Value_zero, binary64Value_decode48, by decide⟩
  · split
    case isTrue h => rw [h, decode48_zero]
    case isFalse h => exact decode48_of_ne h
  · rw [decode48Value_eq_sign_mul h, mul_assoc]
    rfl

/-- Settles O13: the bounds are those of the magnitude, the extremes are the corner patterns. -/
theorem resultRange : Obligations.ResultRange := by
  refine ⟨fun p => ⟨decode48_zero_or_normal p, abs_decode48Value_zero_or_range p,
    decode48_ne_negativeZero p, ?_, ?_, smallestPositive_le, le_signOnly⟩, by decide, by decide,
    by decide, by decide, decode48Value_smallestPositive, decode48Value_signOnly⟩
  · rw [decode48Value_largest]
    exact (abs_le.1 (abs_decode48Value_le p)).2
  · rw [decode48Value_mostNegative]
    exact (abs_le.1 (abs_decode48Value_le p)).1

/-- Settles O14: the flip changes the sign field alone, and neither pattern is the all-zero one. -/
theorem signFlipNegates : Obligations.SignFlipNegates := by
  refine ⟨fun p hp hmask => ?_, decode48_zero, decode48Value_signOnly⟩
  have hflip := flipSign_ne_zero hmask
  constructor
  · rw [decode48_of_ne hp, decode48_of_ne hflip, exponentField_flipSign, signField_flipSign,
      mantissaField_flipSign, packBinary64_flipSign]
  · rw [decode48Value_of_ne hp, decode48Value_of_ne hflip, signField_flipSign,
      magnitudeValue_flipSign]
    cases signField p <;> simp

/-- Settles O15: the increment changes the exponent field alone, and its exclusions keep both patterns on the normal
path. -/
theorem exponentIncrementDoubles : Obligations.ExponentIncrementDoubles := by
  refine ⟨fun p h255 hne => ?_, decode48Value_zero, decode48Value_exponentOne⟩
  have hp : p ≠ 0 := by
    rintro rfl
    exact hne.elim (absurd (by decide)) (absurd (by decide))
  rw [decode48Value_eq_sign_mul hp, decode48Value_eq_sign_mul (increment_ne_zero h255),
    signField_increment, magnitudeValue_increment h255, mul_left_comm]

/-- Settles O16: a result gives back each field of its pattern, and the image is that of the biased exponent. -/
theorem decodeIsInjective : Obligations.DecodeIsInjective :=
  ⟨fun _ _ => decode48_injective, exists_decode48_eq_iff, decode48_eq_zero_iff⟩

end Sys2Proof.Machine
end

section
/-! The statements of 41_stream.md about an edge at which nothing happens (R108) and about the tags of a row in closed
form (R110). -/

namespace Sys2Proof.Machine

variable {w : Widths}

/-! ### An edge with neither a pop nor a take (R108) -/

theorem outputTransfer_eq_false {p : Pins w} {s : Block w} (h : s.oValid = false ∨ p.outReady = false) :
    outputTransfer p s = false := by
  unfold outputTransfer Block.outValid
  rcases h with hv | hr
  · simp [hv]
  · simp [hr]

theorem inReady_eq_false_of_phase {s : Block w} (h : s.phase ≠ .run) (outReady : Bool) :
    s.inReady outReady = false :=
  Bool.eq_false_of_not_eq_true fun hr => h ((inReady_iff s outReady).1 hr).1

theorem inReady_eq_false_of_full {s : Block w} (h : s.oValid = true) : s.inReady false = false := by
  simp [Block.inReady, h]

theorem inputTransfer_eq_false {p : Pins w} {s : Block w}
    (h : p.inValid = false ∨ s.phase ≠ .run ∨ (s.oValid = true ∧ p.outReady = false)) :
    inputTransfer p s = false := by
  unfold inputTransfer
  rcases h with hv | hp | ⟨hv, hr⟩
  · simp [hv]
  · simp [inReady_eq_false_of_phase hp]
  · simp [hr, inReady_eq_false_of_full hv]

/-- R100: outside RESET and INIT, an edge performs an operation only where there is a transfer. -/
theorem clockEdge_of_no_transfer {p : Pins w} {s : Block w} (hrst : p.rst = false)
    (hinit : s.phase ≠ .init) (hpop : outputTransfer p s = false) (htake : inputTransfer p s = false) :
    clockEdge p s = .next ⟨w, s⟩ := by
  have hops : edgeOps p s = [] := by simp [edgeOps, hrst, hinit, hpop, htake]
  unfold clockEdge
  rw [hops, runOps_nil]

/-! ### The tags of row r (R110) -/

/-- In the first row of a reactor ticks is 0. -/
theorem rowTicks_of_mod_eq_zero {iv : BitVec 8} {r : Nat} (h : r % rowsPerReactor iv = 0) :
    rowTicks iv r = 0 := by
  rw [rowTicks, h]
  rfl

/-- The rows of the first reactor. -/
theorem rowReactor_of_lt {iv : BitVec 8} {r : Nat} (h : r < rowsPerReactor iv) :
    rowReactor w iv r = 1 := by
  rw [rowReactor, Nat.div_eq_of_lt h]
  rfl

/-- The row after the last of the first reactor. -/
theorem rowReactor_rowsPerReactor (iv : BitVec 8) : rowReactor w iv (rowsPerReactor iv) = 2 := by
  have hpos : 0 < rowsPerReactor iv := Nat.succ_pos _
  rw [rowReactor, Nat.div_self hpos]
  rfl

/-- `s` with the tags of row `r` in its registers. -/
def Block.atRow (s : Block w) (r : Nat) : Block w :=
  { s with rowsPrinted := rowTicks s.cfgIv r, reactor := rowReactor w s.cfgIv r }

theorem Block.atRow_zero {s : Block w} (hrows : s.rowsPrinted = 0) (hreactor : s.reactor = 1) :
    s.atRow 0 = s := by
  have hticks : rowTicks s.cfgIv 0 = s.rowsPrinted :=
    (rowTicks_of_mod_eq_zero (Nat.zero_mod _)).trans hrows.symm
  have hreact : rowReactor w s.cfgIv 0 = s.reactor :=
    (rowReactor_of_lt (Nat.succ_pos _)).trans hreactor.symm
  unfold Block.atRow
  rw [hticks, hreact]

/-- No wrap at 8 bits: `per` is at most 146. -/
theorem rowTicks_toNat {iv : BitVec 8} (h : legalInterval iv = true) (r : Nat) :
    (rowTicks iv r).toNat = r % rowsPerReactor iv := by
  obtain ⟨d, _, hper, hd⟩ := rowsPerReactor_of_legal h
  have hlt : r % rowsPerReactor iv < rowsPerReactor iv := Nat.mod_lt r (by omega)
  rw [rowTicks, BitVec.toNat_ofNat, Nat.mod_eq_of_lt (by omega)]

/-- The strict comparison of R105 holds exactly in the last row of a reactor. -/
theorem dpd_lt_rowTicks_iff {iv : BitVec 8} (h : legalInterval iv = true) (r : Nat) :
    1440 / iv.toNat < (rowTicks iv r).toNat ↔ r % rowsPerReactor iv = rowsPerReactor iv - 1 := by
  obtain ⟨d, hdpd, hper, _⟩ := rowsPerReactor_of_legal h
  have hlt : r % rowsPerReactor iv < rowsPerReactor iv := Nat.mod_lt r (by omega)
  rw [rowTicks_toNat h]
  omega

/-- One row completion moves the tags from row `r` to row `r + 1` (R105, R110). -/
theorem rowComplete_atRow {s : Block w} (h : legalInterval s.cfgIv = true) (r : Nat) :
    rowComplete (s.atRow r) = .next (s.atRow (r + 1)) := by
  have hpos : 0 < rowsPerReactor s.cfgIv := Nat.succ_pos _
  obtain ⟨hlast, hinner⟩ := div_succ_mod (n := r) hpos
  have hiff : 1440 / (s.atRow r).cfgIv.toNat < (s.atRow r).rowsPrinted.toNat ↔ _ :=
    dpd_lt_rowTicks_iff h r
  rw [rowComplete_of_legal (s := s.atRow r) h]
  split
  case isTrue hgt =>
    obtain ⟨hmod, hdiv⟩ := hlast (hiff.1 hgt)
    have hreactor : rowReactor w s.cfgIv r + 1 = rowReactor w s.cfgIv (r + 1) := by
      rw [rowReactor, rowReactor, hdiv]
      exact ofNat_succ _ _
    have hticks : rowTicks s.cfgIv (r + 1) = 0 := rowTicks_of_mod_eq_zero hmod
    simp only [Block.atRow, hreactor, hticks]
  case isFalse hle =>
    obtain ⟨hmod, hdiv⟩ := hinner (mt hiff.2 hle)
    have hreactor : rowReactor w s.cfgIv r = rowReactor w s.cfgIv (r + 1) := by
      rw [rowReactor, rowReactor, hdiv]
    have hticks : rowTicks s.cfgIv r + 1 = rowTicks s.cfgIv (r + 1) := by
      rw [rowTicks, rowTicks, hmod]
      exact ofNat_succ _ _
    simp only [Block.atRow, hreactor, hticks]

/-- After `r` row completions the registers are the tags of row `r`. -/
theorem rowsCompleted_eq_atRow {s : Block w} (h : legalInterval s.cfgIv = true)
    (hrows : s.rowsPrinted = 0) (hreactor : s.reactor = 1) (r : Nat) :
    rowsCompleted r s = .next (s.atRow r) := by
  induction r with
  | zero => rw [rowsCompleted, Block.atRow_zero hrows hreactor]
  | succ r ih => rw [rowsCompleted, ih, andThen_next_left, rowComplete_atRow h]

/-! ### The obligations -/

/-- Settles O37: such an edge has no transfer, so it performs no operation. -/
theorem idleEdgeChangesNothing : Obligations.IdleEdgeChangesNothing := by
  refine fun w => ⟨fun p s hrst hinit hpop htake => ?_, fun s outReady hphase => ?_⟩
  · exact clockEdge_of_no_transfer hrst hinit (outputTransfer_eq_false hpop) (inputTransfer_eq_false htake)
  · refine inReady_eq_false_of_phase ?_ outReady
    rcases hphase with hp | hp <;> simp [hp]

/-- Settles O25, by induction on the number of completed rows (`rowsCompleted_eq_atRow`); the boundary at interval
10 is the rollover of the first reactor, whose `per` is 146. -/
theorem rowTagsClosedForm : Obligations.RowTagsClosedForm := by
  have hlegal : legalInterval 10 = true := (legalInterval_iff 10).2 (.inl rfl)
  have hper : rowsPerReactor 10 = 146 := rfl
  refine ⟨fun r w s h hrows hreactor => rowsCompleted_eq_atRow h hrows hreactor r, hper, rfl, rfl,
    fun w r hr => ?_, fun w => ?_, ?_, fun w s => rfl⟩
  · have hlt : r < rowsPerReactor 10 := by omega
    exact ⟨rowReactor_of_lt hlt, by rw [rowTicks_toNat hlegal, Nat.mod_eq_of_lt hlt]⟩
  · rw [← hper]
    exact rowReactor_rowsPerReactor 10
  · rw [← hper]
    exact rowTicks_of_mod_eq_zero (Nat.mod_self _)

end Sys2Proof.Machine
end

section
/-! The statement of 60_exceptions.md about a refused configuration (R131, R132, R136, R137). It turns on the write of
one bit of err (`writeErr`), which no other condition's bit sees. -/

namespace Sys2Proof.Machine

variable {w : Widths}

/-! ### The bits of err, each with its own condition (R130, R136) -/

theorem Condition.bit_lt (c : Condition) : c.bit < 3 := by
  cases c <;> decide

/-- No two conditions share a bit. -/
theorem conditionMask_getLsbD (c d : Condition) : (1#3 <<< c.bit).getLsbD d.bit = decide (c = d) := by
  cases c <;> cases d <;> rfl

theorem writeErr_getLsbD (c d : Condition) (v : Bool) (err : BitVec 3) :
    (writeErr c v err).getLsbD d.bit = if c = d then v else err.getLsbD d.bit := by
  have hmask := conditionMask_getLsbD c d
  unfold writeErr
  cases v with
  | true =>
    rw [if_pos rfl, BitVec.getLsbD_or, hmask]
    split <;> simp [*]
  | false =>
    rw [if_neg Bool.false_ne_true, BitVec.getLsbD_and, BitVec.getLsbD_not, hmask]
    split <;> simp [*, d.bit_lt]

theorem latchConfig_err_zero (nv : BitVec w.nvW) (iv : BitVec 8) (s : Block w) :
    (latchConfig nv iv s).err.getLsbD 0 = badNoDiVars nv := by
  rw [latchConfig_err]
  exact (writeErr_getLsbD _ .invalidConfiguration _ _).trans (writeErr_getLsbD .invalidConfiguration _ _ _)

theorem latchConfig_err_one (nv : BitVec w.nvW) (iv : BitVec 8) (s : Block w) :
    (latchConfig nv iv s).err.getLsbD 1 = badInterval iv := by
  rw [latchConfig_err]
  exact writeErr_getLsbD .unsupportedInterval .unsupportedInterval _ _

theorem latchConfig_err_two (nv : BitVec w.nvW) (iv : BitVec 8) (s : Block w) :
    (latchConfig nv iv s).err.getLsbD 2 = s.err.getLsbD 2 := by
  rw [latchConfig_err]
  exact (writeErr_getLsbD _ .truncatedRecord _ _).trans (writeErr_getLsbD _ .truncatedRecord _ _)

theorem latchConfig_phase_fault_iff (nv : BitVec w.nvW) (iv : BitVec 8) (s : Block w) :
    (latchConfig nv iv s).phase = .fault ↔ badNoDiVars nv = true ∨ badInterval iv = true := by
  rw [latchConfig_phase, ← Bool.or_eq_true]
  split <;> simp_all

/-! ### The obligation -/

/-- Settles O21. START is the latch (`latchConfig`), whose two checks write their own bits. In FAULT a run holds no
token (R32(e)) and takes none, so an edge without rst has no transfer and performs no operation. -/
theorem refusedConfigurationIsTerminal : Obligations.RefusedConfigurationIsTerminal := by
  refine fun w => ⟨fun nv iv s hinv hp => ?_, fun p s hinv hp hrst => ?_⟩
  · obtain ⟨_, _, _, herr⟩ := hinv.init hp
    have hstart : exec (.start nv.toNat iv) ⟨w, s⟩ = .next ⟨w, latchConfig nv iv s⟩ := by
      rw [exec_start_of_init nv.toNat iv hp, BitVec.ofNat_toNat, BitVec.setWidth_eq]
    refine ⟨_, hstart, ?_, ?_, ?_, ?_⟩
    · rw [latchConfig_err_zero, badNoDiVars_iff]
    · rw [latchConfig_err_one, badInterval_iff]
    · rw [latchConfig_err_two, herr]
      rfl
    · rw [latchConfig_phase_fault_iff, badNoDiVars_iff, badInterval_iff]
  · obtain ⟨huntouched, _⟩ := hinv.fault hp
    have hempty : s.oValid = false := huntouched.valid_eq
    have hrun : s.phase ≠ .run := by simp [hp]
    have hinit : s.phase ≠ .init := by simp [hp]
    have hpop : outputTransfer p s = false := outputTransfer_eq_false (.inl hempty)
    have htake : inputTransfer p s = false := inputTransfer_eq_false (.inr (.inl hrun))
    exact ⟨clockEdge_of_no_transfer hrst hinit hpop htake, inReady_eq_false_of_phase hrun _, hempty⟩

end Sys2Proof.Machine
end

section
/-! The statement of 70_reset_and_hazards.md about RESET (R150): at an edge with rst = 1 it is the only operation, and
it gives every element of R21 its reset value. -/

namespace Sys2Proof.Machine

variable {w : Widths}

/-! ### An edge with rst = 1 -/

/-- R100: rst is looked at before every other port and before the phase. -/
theorem edgeOps_of_rst {p : Pins w} (s : Block w) (h : p.rst = true) : edgeOps p s = [.reset] :=
  if_pos h

theorem clockEdge_of_rst {p : Pins w} (s : Block w) (h : p.rst = true) :
    clockEdge p s = exec .reset ⟨w, s⟩ := by
  unfold clockEdge
  rw [edgeOps_of_rst s h, runOps_single]

/-! ### The state RESET leaves -/

theorem resetBlock_sameBlock (s : Block w) : SameBlock (Block.reset w) (resetBlock s) where
  phase_eq := resetBlock_phase s
  nv_eq := resetBlock_cfgNv s
  iv_eq := resetBlock_cfgIv s
  sr_eq := resetBlock_sr s
  bidx_eq := resetBlock_bidx s
  col_eq := resetBlock_col s
  rows_eq := resetBlock_rowsPrinted s
  reactor_eq := resetBlock_reactor s
  read_eq := resetBlock_numbersRead s
  err_eq := resetBlock_err s
  valid_eq := resetBlock_oValid s
  tok_eq := resetBlock_oTok s

/-! ### The obligation -/

/-- Settles O18: an edge with rst = 1 performs the one operation RESET (`edgeOps_of_rst`), whose result agrees with
`Block.reset` in every element (`resetBlock_sameBlock`); the values themselves are R33's table. -/
theorem resetHasPriority : Obligations.ResetHasPriority := by
  refine fun w s => ⟨⟨resetBlock s, exec_reset s, resetBlock_sameBlock s⟩,
    fun p hrst => clockEdge_of_rst s hrst, ?_⟩
  exact ⟨rfl, rfl, rfl, rfl, rfl, rfl, rfl, rfl, rfl, rfl, rfl, rfl⟩

end Sys2Proof.Machine
end

section
/-! The statements of 30_encoding.md about words (R60 to R64, R69): what decoding reads of a word given by its bits, and
that it reads back what the encoder wrote, row by row. -/

namespace Sys2Proof

variable {w : Widths}

/-! ### A word given by its bits -/

theorem decode_packedReal (x : BitVec 3) (p : PackedReal) :
    decode w x ⟨.packedReal, p.toNat⟩ = .ok (decodePackedReal p) :=
  (decode_format x .packedReal p.toNat p.isLt).trans
    (congrArg (fun q => Except.ok (decodePackedReal q)) (ofNat_toNat_cast p rfl))

theorem decode_inputToken (x : BitVec 3) (t : TokenBits) :
    decode w x ⟨.inputToken, t.toNat⟩ = .ok (decodeToken x t) :=
  (decode_format x .inputToken t.toNat t.isLt).trans
    (congrArg (fun q => Except.ok (decodeToken x q)) (ofNat_toNat_cast t rfl))

theorem decode_recTokens (x : BitVec 3) (t : BitVec 54) :
    decode w x ⟨.recTokens, t.toNat⟩ = decodeRec t :=
  (decode_format x .recTokens t.toNat t.isLt).trans (congrArg decodeRec (ofNat_toNat_cast t rfl))

/-! ### The PackedReal (R60, R62) -/

theorem decodePackedReal_assembleReal {e : BitVec 8} {s : Bool} {m : BitVec 39}
    (h : assembleReal e s m ≠ 0) : decodePackedReal (assembleReal e s m) = .decode48Normal e s m := by
  rw [decodePackedReal, if_neg h, exponentField_assembleReal, signField_assembleReal,
    mantissaField_assembleReal]

/-- The one term of the row DECODE48.NORMAL that is no word of it is the all-zero pattern. -/
theorem decode48Normal_wellFormed_iff (w : Widths) (e : BitVec 8) (s : Bool) (m : BitVec 39) :
    (Instr.decode48Normal e s m).wellFormed w = true ↔ assembleReal e s m ≠ 0 := by
  rw [ne_eq, assembleReal_eq_zero, Instr.wellFormed, Bool.not_eq_true', ← Bool.not_eq_true]
  simp only [Bool.and_eq_true, beq_iff_eq, Bool.not_eq_true', and_assoc]

/-! ### The input token (R63) -/

theorem tokenBits_eos (a : Bool) (b : Byte) : (BitVec.ofBool a ++ b).getLsbD 8 = a := by
  rw [BitVec.getLsbD_append, if_neg (by omega), BitVec.getLsbD_ofBool]
  rfl

theorem tokenBits_data (a : Bool) (b : Byte) : (BitVec.ofBool a ++ b).extractLsb' 0 8 = b := by
  apply BitVec.eq_of_getLsbD_eq
  intro k hk
  rw [BitVec.getLsbD_extractLsb', Nat.zero_add, decide_eq_true hk, Bool.true_and, BitVec.getLsbD_append,
    if_pos hk]

theorem decodeToken_append (x : BitVec 3) (a : Bool) (b : Byte) :
    decodeToken x (BitVec.ofBool a ++ b) =
      if a then .eos else if x < 5 then .byteStore b else .byteComplete b := by
  rw [decodeToken, tokenBits_eos, tokenBits_data]

/-! ### REC (R69) -/

theorem decodeRec_recBits (p : PackedReal) : decodeRec (recBits p) = .ok (.recLine p) := by
  have hbyte : ∀ i, i < 6 → (recToken (recBits p) i).getLsbD 8 = false := fun i hi => by
    rw [recToken_recBits p i hi, byteToken_eos]
  have hany : (List.range 6).any (fun i => (recToken (recBits p) i).getLsbD 8) = false := by
    rw [List.any_eq_false]
    intro i hi
    rw [hbyte i (List.mem_range.1 hi)]
    exact Bool.false_ne_true
  have hdata : ∀ i, i < 6 → (recToken (recBits p) i).extractLsb' 0 8 = literalByte p i := fun i hi => by
    rw [recToken_recBits p i hi, byteToken_data]
  unfold decodeRec
  rw [hany, if_neg Bool.false_ne_true, hdata 0 (by omega), hdata 1 (by omega), hdata 2 (by omega),
    hdata 3 (by omega), hdata 4 (by omega), hdata 5 (by omega), literalByte_append]

/-! ### START with its operands -/

theorem decode_startPorts (x : BitVec 3) (nv : BitVec w.nvW) (iv : BitVec 8) :
    decode w x ⟨.startPorts, (nv ++ iv ++ 0#8).toNat⟩ = .ok (.start nv.toNat iv) := by
  refine (decode_format x .startPorts _ (startBits_lt nv iv)).trans ?_
  show decodeStart w (BitVec.ofNat (16 + w.nvW) _) = _
  rw [ofNat_toNat_cast _ (show w.nvW + 8 + 8 = 16 + w.nvW by omega), decodeStart]
  simp only [BitVec.extractLsb'_cast]
  rw [startBits_condition, startBits_interval, startBits_nodivars, if_pos rfl]

/-! ### The output token (R64) -/

theorem decode_outputToken (x : BitVec 3) (a b c d e : Bool) (r : BitVec w.reactorW) (t : BitVec 8)
    (l : BitVec w.nvW) (y : Binary64) :
    decode w x ⟨.outputToken, (outputTokenBits w a b c d e r t l y).toNat⟩ =
      if a then
        if e || d || y != 0 then .error .fixedFieldSet else .ok (.endTok b c r.toNat t l.toNat)
      else
        if c || b then .error .fixedFieldSet else .ok (.value d e r.toNat t l.toNat y) := by
  have hflag := outputTokenBits_flag a b c d e r t l y
  refine (decode_format x .outputToken _ (outputTokenBits_lt a b c d e r t l y)).trans ?_
  show decodeOutputToken w (BitVec.ofNat (64 + w.reactorW + w.nvW + 13) _) = _
  rw [ofNat_toNat_cast _ (show 1 + 1 + 1 + 1 + 1 + w.reactorW + 8 + w.nvW + 64 =
    64 + w.reactorW + w.nvW + 13 by omega), decodeOutputToken]
  simp only [BitVec.extractLsb'_cast, BitVec.getLsbD_cast, outputTokenBits_data, outputTokenBits_col,
    outputTokenBits_ticks, outputTokenBits_reactor]
  rw [hflag 0 (by omega), hflag 1 (by omega), hflag 2 (by omega), hflag 3 (by omega), hflag 4 (by omega)]
  rfl

/-- A number that fits its width is read back as it was (log entry 17). -/
theorem toNat_ofNat_of_lt {n k : Nat} (h : k < 2 ^ n) : (BitVec.ofNat n k).toNat = k := by
  rw [BitVec.toNat_ofNat, Nat.mod_eq_of_lt h]

/-! ### The obligations -/

/-- Settles O2, row by row: the format's own lemma says what its word is read as, and an operand that fits its width
is the number the encoder was given. -/
theorem decodeInvertsEncode : Obligations.DecodeInvertsEncode := by
  intro w i x hwf hrow
  cases i with
  | decode48Zero => exact decode_packedReal x 0
  | decode48Normal e s m =>
    have hne : assembleReal e s m ≠ 0 := (decode48Normal_wellFormed_iff w e s m).1 hwf
    exact (decode_packedReal x _).trans (congrArg _ (decodePackedReal_assembleReal hne))
  | byteStore b =>
    have hx : x < 5 := by simpa [Instr.rowAt] using hrow
    exact (decode_inputToken x _).trans (congrArg _ ((decodeToken_byte x b).trans (if_pos hx)))
  | byteComplete b =>
    have hx : ¬x < 5 := by simpa [Instr.rowAt] using hrow
    exact (decode_inputToken x _).trans (congrArg _ ((decodeToken_byte x b).trans (if_neg hx)))
  | eos => exact (decode_inputToken x _).trans (congrArg _ (decodeToken_eos x))
  | recLine p => exact (decode_recTokens x _).trans (decodeRec_recBits p)
  | start nodivars iv =>
    have hnv : nodivars < 2 ^ w.nvW := by simpa [Instr.wellFormed] using hwf
    refine (decode_startPorts x (BitVec.ofNat _ nodivars) iv).trans ?_
    rw [toNat_ofNat_of_lt hnv]
  | pop => exact decode_format x .control 3 (Laws.EncodeFits.pop w)
  | reset => exact decode_format x .control 1 (Laws.EncodeFits.reset w)
  | value sor eor reactor ticks col data =>
    simp only [Instr.wellFormed, Bool.and_eq_true, decide_eq_true_eq] at hwf
    obtain ⟨⟨⟨hreactor, hcol⟩, _⟩, _⟩ := hwf
    refine (decode_outputToken x false false false sor eor (BitVec.ofNat _ reactor) ticks
      (BitVec.ofNat _ col) data).trans ?_
    simp [toNat_ofNat_of_lt hreactor, toNat_ofNat_of_lt hcol]
  | endTok truncRecord truncRow reactor ticks col =>
    simp only [Instr.wellFormed, Bool.and_eq_true, decide_eq_true_eq] at hwf
    obtain ⟨⟨hreactor, hcol⟩, _⟩ := hwf
    refine (decode_outputToken x true truncRecord truncRow false false (BitVec.ofNat _ reactor) ticks
      (BitVec.ofNat _ col) 0).trans ?_
    simp [toNat_ofNat_of_lt hreactor, toNat_ofNat_of_lt hcol]

/-- Settles O3: the operation is `decodePackedReal p`, and the fields of a pattern other than 0 assemble to it. -/
theorem packedRealWordsHaveOneMeaning : Obligations.PackedRealWordsHaveOneMeaning := by
  intro w x p
  refine ⟨_, decode_packedReal x p, ?_⟩
  by_cases hp : p = 0
  case pos =>
    subst hp
    exact ⟨rfl, rfl, iff_of_true rfl rfl⟩
  case neg =>
    have hfields := assembleReal_fields p
    rw [decodePackedReal, if_neg hp]
    refine ⟨?_, ?_, iff_of_false Instr.noConfusion hp⟩
    · rwa [decode48Normal_wellFormed_iff, hfields]
    · exact congrArg (fun q : PackedReal => (⟨.packedReal, q.toNat⟩ : EncWord)) hfields

/-- Settles O4: a token is its bit in_eos above its byte in_data. -/
theorem everyTokenPatternIsLegal : Obligations.EveryTokenPatternIsLegal := fun _ x a b =>
  (decode_inputToken x _).trans (congrArg _ (decodeToken_append x a b))

/-- Settles O1: eight closed words, each read by computing `decode`. -/
theorem wordsDecodeAsWritten : Obligations.WordsDecodeAsWritten :=
  ⟨by decide, by decide, by decide, by decide, by decide, by decide, by decide, by decide⟩

end Sys2Proof
end

section
/-! The statement of 40_decode.md about the source's bit-serial mantissa (R85). The loop reads the bits from the most
significant end, so what it still has to read is the value of the low bits. -/

namespace Sys2Proof.Machine

/-- With `n` bits to go, the next worth `weight`, the loop adds the low `n` bits of `m`, read as a binary fraction
whose first digit is worth `weight`. -/
theorem mantissaLoop_eq (m : BitVec 39) {n : Nat} (hn : n ≤ 39) (acc weight : ℚ) :
    mantissaLoop m n (39 - n) acc weight =
      acc + 2 * weight * (((m.toNat % 2 ^ n : Nat) : ℚ) / 2 ^ n) := by
  induction n generalizing acc weight with
  | zero => simp [mantissaLoop, Nat.mod_one]
  | succ n ih =>
    have hbit : (if m.getLsbD (38 - (39 - (n + 1))) then acc + weight else acc) =
        acc + weight * ((m.toNat.testBit n).toNat : ℚ) := by
      rw [show 38 - (39 - (n + 1)) = n by omega, ← BitVec.testBit_toNat]
      cases m.toNat.testBit n <;> simp
    have hmod : m.toNat % 2 ^ (n + 1) = m.toNat % 2 ^ n + 2 ^ n * (m.toNat.testBit n).toNat := by
      rw [Nat.mod_pow_succ, Nat.toNat_testBit]
    rw [mantissaLoop, hbit, show 39 - (n + 1) + 1 = 39 - n by omega, ih (by omega), hmod]
    push_cast
    field_simp
    ring

/-- Settles O10: the whole loop has all 39 bits to go, and the mantissa is below `2^39`. -/
theorem serialMantissaIsExact : Obligations.SerialMantissaIsExact := by
  intro m
  have hloop := mantissaLoop_eq m (n := 39) le_rfl 0 (1 / 2)
  rw [Nat.mod_eq_of_lt m.isLt] at hloop
  rw [mantissaSerial, show 0 = 39 - 39 from rfl, hloop]
  ring

end Sys2Proof.Machine
end

section
/-! The operations one by one (40_decode.md R81, R88; 41_stream.md R101 to R107; 70_reset_and_hazards.md R150): what
each does where it is enabled, with every element it leaves alone, and that it does nothing elsewhere (R100, R108). -/

namespace Sys2Proof.Machine

variable {w : Widths}

/-! ### Operations of the block as operations of the machine -/

/-- An operation is asked of one state only. -/
theorem onBlock_congr {s : Block w} {f g : Block w → Host.Outcome (Block w) Fault Refusal} (h : f s = g s) :
    State.onBlock ⟨w, s⟩ f = State.onBlock ⟨w, s⟩ g :=
  congrArg (fun o => andThen o fun k => Host.Outcome.next (State.mk w k)) h

theorem onBlock_fault {s : Block w} {f : Block w → Host.Outcome (Block w) Fault Refusal} {r : Fault}
    (h : f s = .fault r) : State.onBlock ⟨w, s⟩ f = .fault r :=
  congrArg (fun o => andThen o fun k => Host.Outcome.next (State.mk w k)) h

theorem inputEnabled_of_run {s : Block w} (hp : s.phase = .run) (hv : s.oValid = false) :
    s.inputEnabled = true := (inputEnabled_iff s).2 ⟨hp, hv⟩

theorem not_inputEnabled {s : Block w} (h : s.phase ≠ .run ∨ s.oValid = true) : ¬s.inputEnabled = true := by
  rw [inputEnabled_iff]
  rintro ⟨hp, hv⟩
  rcases h with h | h
  · exact h hp
  · rw [hv] at h
    cases h

/-! ### Not enabled -/

section NotEnabled

variable {s : Block w}

theorem exec_byteStore_of_not_enabled (h : ¬s.inputEnabled = true) (b : Byte) :
    exec (.byteStore b) ⟨w, s⟩ = .next ⟨w, s⟩ := by
  unfold exec execByteStore
  exact onBlock_next (if_neg h)

theorem exec_byteComplete_of_not_enabled (h : ¬s.inputEnabled = true) (b : Byte) :
    exec (.byteComplete b) ⟨w, s⟩ = .next ⟨w, s⟩ := by
  unfold exec execByteComplete
  exact onBlock_next (if_neg h)

theorem exec_eos_of_not_enabled (h : ¬s.inputEnabled = true) : exec .eos ⟨w, s⟩ = .next ⟨w, s⟩ := by
  unfold exec execEos
  exact onBlock_next (if_neg h)

theorem exec_recLine_of_not_run (h : s.phase ≠ .run) (p : PackedReal) :
    exec (.recLine p) ⟨w, s⟩ = .next ⟨w, s⟩ := by
  unfold exec execRecLine
  exact onBlock_next (if_neg h)

theorem exec_start_of_not_init (h : s.phase ≠ .init) (n : Nat) (iv : BitVec 8) :
    exec (.start n iv) ⟨w, s⟩ = .next ⟨w, s⟩ := by
  unfold exec execStart
  exact onBlock_next (if_neg h)

theorem exec_pop_of_empty (h : s.oValid = false) : exec .pop ⟨w, s⟩ = .next ⟨w, s⟩ := by
  unfold exec execPop
  exact onBlock_next (if_neg (by simp [h]))

theorem exec_value_of_not_enabled (h : ¬s.inputEnabled = true) (sor eor : Bool) (reactor : Nat)
    (ticks : BitVec 8) (col : Nat) (data : Binary64) :
    exec (.value sor eor reactor ticks col data) ⟨w, s⟩ = .next ⟨w, s⟩ :=
  onBlock_next (congrArg _ (if_neg h))

theorem exec_endTok_of_not_enabled (h : ¬s.inputEnabled = true) (truncRecord truncRow : Bool)
    (reactor : Nat) (ticks : BitVec 8) (col : Nat) :
    exec (.endTok truncRecord truncRow reactor ticks col) ⟨w, s⟩ = .next ⟨w, s⟩ :=
  onBlock_next (congrArg _ (if_neg h))

end NotEnabled

/-- Settles O31: an operation's meaning asks for its condition first, and without it answers the state. -/
theorem notEnabledChangesNothing : Obligations.NotEnabledChangesNothing := by
  refine fun w s => ⟨fun h => ?_, exec_pop_of_empty⟩
  have hn := not_inputEnabled h
  exact ⟨exec_byteStore_of_not_enabled hn, exec_byteComplete_of_not_enabled hn, exec_eos_of_not_enabled hn,
    exec_value_of_not_enabled hn, exec_endTok_of_not_enabled hn⟩

/-! ### A byte, in either row -/

section Bytes

variable {s : Block w} (b : Byte)

theorem exec_byteStore_of_enabled (h : s.inputEnabled = true) (hb : s.bidx < 5) :
    exec (.byteStore b) ⟨w, s⟩ = .next ⟨w, storeByte b (takeByte b s)⟩ := by
  unfold exec execByteStore
  exact onBlock_next ((if_pos h).trans (if_pos hb))

theorem exec_byteComplete_of_enabled (h : s.inputEnabled = true) (hb : s.bidx = 5) :
    exec (.byteComplete b) ⟨w, s⟩ =
      State.onBlock ⟨w, s⟩ fun k => completeRecord b (takeByte b k) := by
  unfold exec execByteComplete
  exact onBlock_congr ((if_pos h).trans (if_pos hb))

theorem exec_byteStore_mismatch (h : s.inputEnabled = true) (hb : ¬s.bidx < 5) :
    exec (.byteStore b) ⟨w, s⟩ = .fault .byteRowMismatch := by
  unfold exec execByteStore
  exact onBlock_fault ((if_pos h).trans (if_neg hb))

theorem exec_byteComplete_mismatch (h : s.inputEnabled = true) (hb : s.bidx ≠ 5) :
    exec (.byteComplete b) ⟨w, s⟩ = .fault .byteRowMismatch := by
  unfold exec execByteComplete
  exact onBlock_fault ((if_pos h).trans (if_neg hb))

/-- The row that the byte index says is the one the sequencer takes the byte in (R102, R103; log entry 7). -/
theorem exec_byteRow_of_enabled (h : s.inputEnabled = true) :
    exec (if s.bidx < 5 then .byteStore b else .byteComplete b) ⟨w, s⟩ =
      State.onBlock ⟨w, s⟩ (acceptByte b) := by
  by_cases hlt : s.bidx < 5
  · rw [if_pos hlt, exec_byteStore_of_enabled b h hlt]
    exact (onBlock_next (if_pos hlt)).symm
  · rw [if_neg hlt]
    unfold exec execByteComplete
    exact onBlock_congr ((if_pos h).trans (if_neg hlt).symm)

/-- Away from the last column a record's value is counted in its column (R103). -/
theorem completeRecord_of_not_last (h : s.lastColumn = false) :
    completeRecord b s = .next { outPush (valueToken (s.record b) s) s with
      bidx := 0, numbersRead := s.numbersRead + 1, col := s.col + 1 } :=
  if_neg (by
    show ¬s.lastColumn = true
    rw [h]
    exact Bool.false_ne_true)

/-- In the last column the row is completed as well (R103, R105). -/
theorem completeRecord_of_last (h : s.lastColumn = true) :
    completeRecord b s = rowComplete { outPush (valueToken (s.record b) s) s with
      bidx := 0, numbersRead := s.numbersRead + 1, col := 0 } := if_pos h

end Bytes

theorem lastColumn_eq_true_iff (s : Block w) : s.lastColumn = true ↔ s.col = s.cfgNv - 1 := by
  rw [Block.lastColumn, beq_iff_eq]

theorem lastColumn_eq_false_iff (s : Block w) : s.lastColumn = false ↔ s.col ≠ s.cfgNv - 1 := by
  rw [← Bool.not_eq_true, lastColumn_eq_true_iff]

theorem legalInterval_iff_mem (iv : BitVec 8) : legalInterval iv = true ↔ iv.toNat ∈ [10, 15, 30] := by
  simp [legalInterval, Config.intervals]

theorem rowComplete_of_not_legal {s : Block w} (h : s.cfgIv.toNat ∉ [10, 15, 30]) :
    rowComplete s = .fault .intervalNotLegal := by
  rw [rowComplete, dataPerDay_of_bad ((badInterval_iff _).2 h)]

/-- Settles O22: the byte is stored at the byte index, which is in range. -/
theorem byteStoreFillsAssemblyRegister : Obligations.ByteStoreFillsAssemblyRegister := by
  intro b w s hp hv hb
  have hlt : s.bidx < 5 := (bidx_lt_iff _).2 hb
  refine ⟨_, exec_byteStore_of_enabled b (inputEnabled_of_run hp hv) hlt, rfl, toNat_succ s.bidx (by omega), ?_⟩
  intro i
  simp only [storeByte_sr, takeByte_sr, takeByte_bidx, Fin.getElem_fin, Vector.getElem_setIfInBounds,
    eq_comm (a := s.bidx.toNat)]

/-- Settles O23 (`completeRecord_of_not_last`). -/
theorem byteCompletePushesValue : Obligations.ByteCompletePushesValue := by
  intro b w s hp hv hb hcol
  have hlast : (takeByte b s).lastColumn = false := (lastColumn_eq_false_iff _).2 hcol
  have hfirst : (takeByte b s).firstColumn = (s.col == 0) := rfl
  rw [exec_byteComplete_of_enabled b (inputEnabled_of_run hp hv) hb]
  refine onBlock_next ((completeRecord_of_not_last b hlast).trans ?_)
  rw [valueToken, hlast, hfirst]
  rfl

/-- Settles O24: the record's value, then RowComplete, which rolls over exactly above dpd (`rowComplete_of_legal`). -/
theorem byteCompleteClosesRow : Obligations.ByteCompleteClosesRow := by
  intro b w s hp hv hb hcol hiv
  have hlast : (takeByte b s).lastColumn = true := (lastColumn_eq_true_iff _).2 hcol
  have hfirst : (takeByte b s).firstColumn = (s.col == 0) := rfl
  have hlegal : legalInterval s.cfgIv = true := (legalInterval_iff _).2 hiv
  rw [exec_byteComplete_of_enabled b (inputEnabled_of_run hp hv) hb]
  refine onBlock_next ((completeRecord_of_last b hlast).trans ?_)
  rw [rowComplete_of_legal (by exact hlegal), valueToken, hlast, hfirst]
  by_cases hroll : 1440 / s.cfgIv.toNat < s.rowsPrinted.toNat
  · refine (if_pos hroll).trans ?_
    rw [if_pos hroll, if_pos hroll]
    rfl
  · refine (if_neg hroll).trans ?_
    rw [if_neg hroll, if_neg hroll]
    rfl

/-- Settles O30, by the byte index and the interval that the two rules ask for. -/
theorem byteRowsStopOutsideTheirRules : Obligations.ByteRowsStopOutsideTheirRules := by
  intro b w s hp hv
  have hen := inputEnabled_of_run hp hv
  refine ⟨fun hb => ?_, fun hb => exec_byteComplete_mismatch b hen hb, fun hb hcol hiv => ?_⟩
  · exact exec_byteStore_mismatch b hen (mt (bidx_lt_iff _).1 (Nat.not_lt.2 hb))
  · have hlast : (takeByte b s).lastColumn = true := (lastColumn_eq_true_iff _).2 hcol
    rw [exec_byteComplete_of_enabled b hen hb]
    exact onBlock_fault ((completeRecord_of_last b hlast).trans (rowComplete_of_not_legal (by exact hiv)))

/-! ### EOS, START, RESET and POP -/

/-- The bits err holds after EOS (R106). -/
theorem writeErr_truncatedRecord (v : Bool) (err : BitVec 3) :
    writeErr .truncatedRecord v err = BitVec.ofBool v ++ err.extractLsb' 0 2 := by
  revert v err
  decide

/-- The bits err holds after START (R101). -/
theorem writeErr_configuration (badIv badNv : Bool) (err : BitVec 3) :
    writeErr .unsupportedInterval badIv (writeErr .invalidConfiguration badNv err) =
      BitVec.ofBool (err.getLsbD 2) ++ BitVec.ofBool badIv ++ BitVec.ofBool badNv := by
  revert badIv badNv err
  decide

theorem badInterval_eq (iv : BitVec 8) : badInterval iv = (iv != 10 && iv != 15 && iv != 30) := by
  rw [Bool.eq_iff_iff, badInterval, Bool.not_eq_true', ← Bool.not_eq_true, legalInterval_iff]
  simp [and_assoc]

theorem badNoDiVars_eq (nv : BitVec w.nvW) : badNoDiVars nv = (nv == 0) := by
  rw [Bool.eq_iff_iff, badNoDiVars_iff, beq_iff_eq, ← BitVec.toNat_inj]
  rfl

/-- A write of an error bit changes nothing but err, and the phase where the condition holds. -/
theorem raiseIf_eq (c : Condition) (v : Bool) (s : Block w) :
    raiseIf c v s = { s with err := writeErr c v s.err, phase := if v then c.phaseAfter else s.phase } := by
  cases v <;> rfl

theorem latchConfig_eq (nv : BitVec w.nvW) (iv : BitVec 8) (s : Block w) :
    latchConfig nv iv s = { s with
      cfgNv := nv, cfgIv := iv, err := (latchConfig nv iv s).err, phase := (latchConfig nv iv s).phase } := by
  simp only [latchConfig, raiseIf_eq]

theorem endStream_eq (s : Block w) :
    endStream s = { s with
      oTok := endToken s, oValid := true, err := (endStream s).err, phase := .done } := by
  rw [endStream, raiseIf_eq]
  cases s.recordOpen || s.rowOpen <;> rfl

theorem exec_pop_of_valid {s : Block w} (h : s.oValid = true) :
    exec .pop ⟨w, s⟩ = .next ⟨w, popToken s⟩ := by
  unfold exec execPop
  exact onBlock_next (if_pos h)

/-- Settles O26 (`endStream_eq`). -/
theorem eosPushesEnd : Obligations.EosPushesEnd := by
  intro w s hp hv
  rw [exec_eos_of_enabled (inputEnabled_of_run hp hv), endStream_eq, endStream_err, writeErr_truncatedRecord]
  rfl

/-- Settles O32 (`exec_pop_of_valid`): POP is `popToken`, and that is this record update. -/
theorem popDeliversHeldToken : Obligations.PopDeliversHeldToken := fun _ _ hv => exec_pop_of_valid hv

/-- Settles O19: RESET is the reset block with three fields kept. -/
theorem resetKeepsOwnFields : Obligations.ResetKeepsOwnFields := fun _ s => exec_reset s

/-- R100: in INIT an edge without rst is START of the port values. -/
theorem clockEdge_of_init {p : Pins w} {s : Block w} (hrst : p.rst = false) (hp : s.phase = .init) :
    clockEdge p s = exec (.start p.cfgNodivars.toNat p.cfgInterval) ⟨w, s⟩ := by
  have hops : edgeOps p s = [.start p.cfgNodivars.toNat p.cfgInterval] := by simp [edgeOps, hrst, hp]
  rw [clockEdge, hops, runOps_single]

/-- Settles O20: START is the latch (`latchConfig_eq`) in INIT and nothing elsewhere. -/
theorem startLatchesAndChecks : Obligations.StartLatchesAndChecks := by
  refine fun w => ⟨fun n iv s hp => ?_, fun n iv s hp => exec_start_of_not_init hp n iv,
    fun p s hrst hp => clockEdge_of_init hrst hp⟩
  rw [exec_start_of_init n iv hp, latchConfig_eq, latchConfig_err, latchConfig_phase, writeErr_configuration,
    badInterval_eq, badNoDiVars_eq]

/-! ### The stand-alone decoder and the token rows -/

/-- Settles O6: the zero-check fires on the all-zero pattern. -/
theorem decodeZeroDrivesPositiveZero : Obligations.DecodeZeroDrivesPositiveZero := by
  intro w s
  have hdrive : driveResult 0 s = { s with results := s.results ++ [0] } := by
    rw [driveResult, decode48_zero]
  exact onBlock_next (congrArg _ hdrive)

/-- Settles O7: a pattern of the row is not 0, and its fields are the operands. -/
theorem decodeNormalDrivesPackedFields : Obligations.DecodeNormalDrivesPackedFields := by
  intro e sgn m w s hwf
  have hne : assembleReal e sgn m ≠ 0 := by
    rw [ne_eq, assembleReal_eq_zero]
    rintro ⟨rfl, rfl, rfl⟩
    exact Bool.noConfusion hwf
  have hresult : decode48 (assembleReal e sgn m) = packBinary64 sgn (biasOffset e) m := by
    rw [decode48_of_ne hne, signField_assembleReal, exponentField_assembleReal, mantissaField_assembleReal]
  unfold exec execDecode48Normal
  refine onBlock_next (congrArg _ ?_)
  rw [driveResult, hresult]
  rfl

/-- Settles O33: enabled, a token row is the push of its token. -/
theorem tokenRowsPushTheirToken : Obligations.TokenRowsPushTheirToken := by
  intro w s hp hv
  have hen := inputEnabled_of_run hp hv
  exact ⟨fun _ _ _ _ _ _ => onBlock_next (congrArg _ (if_pos hen)),
    fun _ _ _ _ _ => onBlock_next (congrArg _ (if_pos hen))⟩

/-! ### REC at the start of a record (R69) -/

/-- `s` with a byte taken and stored (R102). -/
def stored (b : Byte) (s : Block w) : Block w := storeByte b (takeByte b s)

theorem stored_bidx_of_eq {s : Block w} {n : Nat} (b : Byte) (h : s.bidx = BitVec.ofNat 3 n) :
    (stored b s).bidx = BitVec.ofNat 3 (n + 1) := by
  rw [stored, storeByte_bidx, takeByte_bidx, h]
  exact ofNat_succ 3 n

theorem stored_inputEnabled {s : Block w} (b : Byte) (h : s.inputEnabled = true) :
    (stored b s).inputEnabled = true := h

theorem stored_oValid {s : Block w} (b : Byte) (h : s.oValid = false) : (stored b s).oValid = false := h

/-- `s` with five bytes of a record in the assembly register. -/
def Block.withFive (s : Block w) (b0 b1 b2 b3 b4 : Byte) : Block w :=
  { s with sr := #v[b0, b1, b2, b3, b4], bidx := 5, taken := s.taken ++ [b0, b1, b2, b3, b4] }

theorem stored_five {s : Block w} (b0 b1 b2 b3 b4 : Byte) (h : s.bidx = 0) :
    stored b4 (stored b3 (stored b2 (stored b1 (stored b0 s)))) = s.withFive b0 b1 b2 b3 b4 := by
  have hsr : ((((s.sr.setIfInBounds 0 b0).setIfInBounds 1 b1).setIfInBounds 2 b2).setIfInBounds 3 b3
      ).setIfInBounds 4 b4 = #v[b0, b1, b2, b3, b4] := by
    apply Vector.ext
    intro i hi
    simp only [Vector.getElem_setIfInBounds]
    rcases (show i = 0 ∨ i = 1 ∨ i = 2 ∨ i = 3 ∨ i = 4 by omega) with rfl | rfl | rfl | rfl | rfl <;> rfl
  have htaken : ((((s.taken ++ [b0]) ++ [b1]) ++ [b2]) ++ [b3]) ++ [b4] = s.taken ++ [b0, b1, b2, b3, b4] := by
    simp
  unfold stored storeByte takeByte Block.withFive
  simp only [h]
  rw [htaken]
  exact congrArg (fun v => { s with sr := v, bidx := 5, taken := s.taken ++ [b0, b1, b2, b3, b4] }) hsr

/-- One row BYTE.STORE, at the byte index `n`. -/
theorem runOps_byteStore {s : Block w} {n : Nat} (b : Byte) (hn : s.bidx = BitVec.ofNat 3 n) (hlt : n < 5)
    (hen : s.inputEnabled = true) (is : List Instr) :
    runOps (.byteStore b :: is) ⟨w, s⟩ = runOps is ⟨w, stored b s⟩ := by
  have hlt5 : s.bidx < 5 := by
    rw [bidx_lt_iff, hn, BitVec.toNat_ofNat]
    omega
  rw [runOps_cons, exec_byteStore_of_enabled b hen hlt5, andThen_next_left, stored]

/-- One transfer into an empty holding register, at the byte index `n`. -/
theorem andThen_transferByte {s : Block w} {n : Nat} (b : Byte) (hn : s.bidx = BitVec.ofNat 3 n) (hlt : n < 5)
    (hv : s.oValid = false) (f : Block w → Host.Outcome (Block w) Fault Refusal) :
    andThen (transferByte b s) f = f (stored b s) := by
  have hlt5 : s.bidx < 5 := by
    rw [bidx_lt_iff, hn, BitVec.toNat_ofNat]
    omega
  rw [transferByte, hv, if_neg Bool.false_ne_true, acceptByte, if_pos hlt5, andThen_next_left, stored]

section FiveBytes

variable {s : Block w} (b0 b1 b2 b3 b4 : Byte)

/-- Five rows BYTE.STORE from byte index 0. -/
theorem runOps_five (hen : s.inputEnabled = true) (hb : s.bidx = 0) (is : List Instr) :
    runOps (.byteStore b0 :: .byteStore b1 :: .byteStore b2 :: .byteStore b3 :: .byteStore b4 :: is) ⟨w, s⟩ =
      runOps is ⟨w, s.withFive b0 b1 b2 b3 b4⟩ := by
  have h1 := stored_bidx_of_eq (n := 0) b0 hb
  have h2 := stored_bidx_of_eq b1 h1
  have h3 := stored_bidx_of_eq b2 h2
  have h4 := stored_bidx_of_eq b3 h3
  have e1 := stored_inputEnabled b0 hen
  have e2 := stored_inputEnabled b1 e1
  have e3 := stored_inputEnabled b2 e2
  have e4 := stored_inputEnabled b3 e3
  rw [runOps_byteStore (n := 0) b0 hb (by omega) hen, runOps_byteStore b1 h1 (by omega) e1,
    runOps_byteStore b2 h2 (by omega) e2, runOps_byteStore b3 h3 (by omega) e3,
    runOps_byteStore b4 h4 (by omega) e4, stored_five _ _ _ _ _ hb]

/-- Five transfers from byte index 0 with the holding register empty. -/
theorem transferByte_five (hv : s.oValid = false) (hb : s.bidx = 0)
    (f : Block w → Host.Outcome (Block w) Fault Refusal) :
    (andThen (transferByte b0 s) fun k1 => andThen (transferByte b1 k1) fun k2 =>
      andThen (transferByte b2 k2) fun k3 => andThen (transferByte b3 k3) fun k4 =>
      andThen (transferByte b4 k4) f) = f (s.withFive b0 b1 b2 b3 b4) := by
  have h1 := stored_bidx_of_eq (n := 0) b0 hb
  have h2 := stored_bidx_of_eq b1 h1
  have h3 := stored_bidx_of_eq b2 h2
  have h4 := stored_bidx_of_eq b3 h3
  have v1 := stored_oValid b0 hv
  have v2 := stored_oValid b1 v1
  have v3 := stored_oValid b2 v2
  have v4 := stored_oValid b3 v3
  rw [andThen_transferByte (n := 0) b0 hb (by omega) hv, andThen_transferByte b1 h1 (by omega) v1,
    andThen_transferByte b2 h2 (by omega) v2, andThen_transferByte b3 h3 (by omega) v3,
    andThen_transferByte b4 h4 (by omega) v4, stored_five _ _ _ _ _ hb]

end FiveBytes

/-- What a completed record leaves as it was, and the token it pushes (R103). -/
theorem completeRecord_frame {b : Byte} {s t : Block w} (h : completeRecord b s = .next t) :
    t = { s with
      bidx := 0, col := t.col, rowsPrinted := t.rowsPrinted, reactor := t.reactor,
      numbersRead := s.numbersRead + 1, oValid := true, oTok := valueToken (s.record b) s } := by
  rcases completeRecord_cases h with ⟨_, rfl⟩ | ⟨_, _, _, ⟨_, rfl⟩ | ⟨_, rfl⟩⟩ <;> rfl

/-- Settles O28: five bytes fill the assembly register (`runOps_five`, `transferByte_five`), and the sixth completes
the record both ways. -/
theorem recIsSixBytes : Obligations.RecIsSixBytes := by
  intro p w s hp hv hb hiv
  obtain ⟨t, ht⟩ := completeRecord_of_legal (literalByte p 5) (s := takeByte (literalByte p 5)
    (s.withFive (literalByte p 0) (literalByte p 1) (literalByte p 2) (literalByte p 3) (literalByte p 4)))
    (by exact hiv)
  have hframe := completeRecord_frame ht
  have hen := inputEnabled_of_run hp hv
  refine ⟨t, ?_, ?_, ?_, ?_, ?_⟩
  · unfold exec execRecLine
    refine onBlock_next ((if_pos hp).trans ((transferByte_five _ _ _ _ _ hv hb _).trans ?_))
    rw [transferByte, show (Block.withFive s _ _ _ _ _).oValid = false from hv, if_neg Bool.false_ne_true]
    exact ht
  · refine (runOps_five _ _ _ _ _ hen hb _).trans ?_
    rw [runOps_single, exec_byteComplete_of_enabled _ (by exact hen) rfl]
    exact onBlock_next ht
  · rw [hframe]
    exact congrArg decode48 (literalByte_append p)
  · rw [hframe]
    rfl
  · rw [hframe]
    simp only [takeByte, Block.withFive, List.append_assoc]
    rfl

end Sys2Proof.Machine
end

section
/-! One rising edge (41_stream.md R100; 20_memory.md R41, R47): which operations it performs, and what a transfer at
it does to the block. A step is such an edge, or one operation by its word. -/

namespace Sys2Proof.Machine

variable {w : Widths}

/-! ### Which operations an edge performs -/

theorem runOps_append (is js : List Instr) (u : State) :
    runOps (is ++ js) u = andThen (runOps is u) (runOps js) := by
  induction is generalizing u with
  | nil => rfl
  | cons i is ih =>
    rw [List.cons_append, runOps_cons, runOps_cons]
    cases exec i u with
    | next v => exact ih v
    | fault r => rfl
    | refused r => rfl

/-- R100: outside RESET and INIT, the POP of an output transfer, then the token of an input transfer. -/
theorem clockEdge_eq_andThen {p : Pins w} {s : Block w} (hrst : p.rst = false) (hinit : s.phase ≠ .init) :
    clockEdge p s =
      andThen (if outputTransfer p s then exec .pop ⟨w, s⟩ else .next ⟨w, s⟩) fun u =>
        if inputTransfer p s then exec (decodeToken s.bidx (tokenOf p)) u else .next u := by
  have hops : edgeOps p s = (if outputTransfer p s then [.pop] else []) ++
      (if inputTransfer p s then [decodeToken s.bidx (tokenOf p)] else []) := by
    simp [edgeOps, hrst, hinit]
  have hif : ∀ (c : Bool) (i : Instr) (u : State),
      runOps (if c then [i] else []) u = if c then exec i u else .next u := by
    intro c i u
    cases c with
    | false => rfl
    | true => exact runOps_single i u
  unfold clockEdge
  rw [hops, runOps_append, hif]
  exact congrArg _ (funext fun u => hif _ _ u)

theorem outputTransfer_eq {p : Pins w} (s : Block w) (hrst : p.rst = false) :
    outputTransfer p s = (s.oValid && p.outReady) := by
  simp [outputTransfer, hrst, Block.outValid]

theorem inputTransfer_eq {p : Pins w} (s : Block w) (hrst : p.rst = false) :
    inputTransfer p s = (p.inValid && s.phase == .run && (!s.oValid || p.outReady)) := by
  simp [inputTransfer, hrst, Block.inReady, Bool.and_assoc]

theorem decodeToken_tokenOf (x : BitVec 3) (p : Pins w) :
    decodeToken x (tokenOf p) =
      if p.inEos then .eos else if x < 5 then .byteStore p.inData else .byteComplete p.inData :=
  decodeToken_append x p.inEos p.inData

/-- Settles O34: the four cases of `clockEdge_eq_andThen`. -/
theorem edgePerformsItsSteps : Obligations.EdgePerformsItsSteps := by
  intro w p s
  refine ⟨clockEdge_of_rst s, clockEdge_of_init, fun hrst hinit => ?_⟩
  have htoken : decodeToken s.bidx (tokenOf p) = if p.inEos then Instr.eos
      else if s.bidx.toNat < 5 then .byteStore p.inData else .byteComplete p.inData := by
    simp only [decodeToken_tokenOf, bidx_lt_iff]
  rw [clockEdge_eq_andThen hrst hinit, htoken, outputTransfer_eq s hrst, inputTransfer_eq s hrst]
  refine ⟨fun hpop htake => ?_, fun hpop htake => ?_, fun hpop htake => ?_, fun hpop htake => ?_⟩ <;>
    rw [hpop, htake]
  · rfl
  · exact andThen_next_right _
  · rfl
  · rfl

/-! ### What a transfer does to the block -/

/-- `s` with its holding register emptied: what stands after the POP of an edge with a ready consumer. -/
def Block.popped (s : Block w) : Block w := if s.oValid then popToken s else s

theorem popped_of_valid {s : Block w} (h : s.oValid = true) : s.popped = popToken s := if_pos h

theorem popped_of_empty {s : Block w} (h : s.oValid = false) : s.popped = s := if_neg (by simp [h])

theorem popped_oValid (s : Block w) : s.popped.oValid = false := by
  cases h : s.oValid with
  | false => rw [popped_of_empty h, h]
  | true => rw [popped_of_valid h, popToken_oValid]

theorem popped_bidx (s : Block w) : s.popped.bidx = s.bidx := by
  unfold Block.popped
  split <;> rfl

theorem popped_phase (s : Block w) : s.popped.phase = s.phase := by
  unfold Block.popped
  split <;> rfl

theorem popped_taken (s : Block w) : s.popped.taken = s.taken := by
  unfold Block.popped
  split <;> rfl

theorem popped_delivered (s : Block w) : s.popped.delivered = s.delivered ++ s.pending := by
  unfold Block.popped Block.pending
  split
  · rfl
  · rw [List.append_nil]

theorem popped_inputEnabled {s : Block w} (h : s.phase = .run) : s.popped.inputEnabled = true :=
  inputEnabled_of_run ((popped_phase s).trans h) (popped_oValid s)

/-- What an input transfer needs of the pins and the block (R41). -/
theorem inputTransfer_iff (p : Pins w) (s : Block w) :
    inputTransfer p s = true ↔
      p.rst = false ∧ p.inValid = true ∧ s.phase = .run ∧ (s.oValid = false ∨ p.outReady = true) := by
  rw [inputTransfer, Bool.and_eq_true, Bool.and_eq_true, inReady_iff, Bool.not_eq_true', and_assoc]

/-- An input transfer empties the holding register first (R100). -/
theorem clockEdge_of_take {p : Pins w} {s : Block w} (h : inputTransfer p s = true) :
    clockEdge p s = exec (decodeToken s.bidx (tokenOf p)) ⟨w, s.popped⟩ := by
  obtain ⟨hrst, _, hp, hready⟩ := (inputTransfer_iff p s).1 h
  have hinit : s.phase ≠ .init := by simp [hp]
  rw [clockEdge_eq_andThen hrst hinit, h, outputTransfer_eq s hrst]
  cases hv : s.oValid with
  | false => rw [popped_of_empty hv]; rfl
  | true =>
    have hr : p.outReady = true := hready.resolve_left (by simp [hv])
    rw [popped_of_valid hv, hr, exec_pop_of_valid hv]
    rfl

/-- At an edge a byte is taken as REC takes it (R41, R100). -/
theorem clockEdge_of_take_byte {p : Pins w} {s : Block w} (h : inputTransfer p s = true)
    (heos : p.inEos = false) : clockEdge p s = State.onBlock ⟨w, s⟩ (transferByte p.inData) := by
  obtain ⟨_, _, hp, _⟩ := (inputTransfer_iff p s).1 h
  rw [clockEdge_of_take h, decodeToken_tokenOf, heos, if_neg Bool.false_ne_true, ← popped_bidx s,
    exec_byteRow_of_enabled _ (popped_inputEnabled hp)]
  rfl

theorem clockEdge_of_take_eos {p : Pins w} {s : Block w} (h : inputTransfer p s = true)
    (heos : p.inEos = true) : clockEdge p s = .next ⟨w, endStream s.popped⟩ := by
  obtain ⟨_, _, hp, _⟩ := (inputTransfer_iff p s).1 h
  rw [clockEdge_of_take h, decodeToken_tokenOf, heos, if_pos rfl,
    exec_eos_of_enabled (popped_inputEnabled hp)]

theorem clockEdge_of_pop {p : Pins w} {s : Block w} (hrst : p.rst = false) (hinit : s.phase ≠ .init)
    (htake : inputTransfer p s = false) (hv : s.oValid = true) (hready : p.outReady = true) :
    clockEdge p s = .next ⟨w, popToken s⟩ := by
  rw [clockEdge_eq_andThen hrst hinit, htake, outputTransfer_eq s hrst, hv, hready, exec_pop_of_valid hv]
  rfl

/-- Everything an edge can do outside RESET and INIT (R100). -/
theorem clockEdge_cases {p : Pins w} {s : Block w} (hrst : p.rst = false) (hinit : s.phase ≠ .init) :
    (inputTransfer p s = true ∧ p.inEos = false ∧
      clockEdge p s = State.onBlock ⟨w, s⟩ (transferByte p.inData)) ∨
    (inputTransfer p s = true ∧ p.inEos = true ∧ clockEdge p s = .next ⟨w, endStream s.popped⟩) ∨
    (inputTransfer p s = false ∧ outputTransfer p s = true ∧ clockEdge p s = .next ⟨w, popToken s⟩) ∨
    (inputTransfer p s = false ∧ outputTransfer p s = false ∧ clockEdge p s = .next ⟨w, s⟩) := by
  cases htake : inputTransfer p s with
  | true =>
    cases heos : p.inEos with
    | false => exact .inl ⟨rfl, rfl, clockEdge_of_take_byte htake heos⟩
    | true => exact .inr (.inl ⟨rfl, rfl, clockEdge_of_take_eos htake heos⟩)
  | false =>
    cases hpop : outputTransfer p s with
    | true =>
      rw [outputTransfer_eq s hrst, Bool.and_eq_true] at hpop
      obtain ⟨hv, hready⟩ := hpop
      exact .inr (.inr (.inl ⟨rfl, rfl, clockEdge_of_pop hrst hinit htake hv hready⟩))
    | false => exact .inr (.inr (.inr ⟨rfl, rfl, clockEdge_of_no_transfer hrst hinit hpop htake⟩))

/-! ### The records of transfers (log entry 4) -/

theorem acceptByte_records {b : Byte} {s t : Block w} (h : acceptByte b s = .next t) :
    t.taken = s.taken ++ [b] ∧ t.delivered = s.delivered := by
  rcases acceptByte_cases h with ⟨_, rfl⟩ | ⟨_, hc⟩
  · exact ⟨rfl, rfl⟩
  · rw [completeRecord_frame hc]
    exact ⟨rfl, rfl⟩

theorem transferByte_records {b : Byte} {s t : Block w} (h : transferByte b s = .next t) :
    t.taken = s.taken ++ [b] ∧ t.delivered = s.delivered ++ s.pending := by
  obtain ⟨htaken, hdelivered⟩ := acceptByte_records (s := s.popped) h
  exact ⟨htaken.trans (by rw [popped_taken]), hdelivered.trans (popped_delivered s)⟩

/-- At an input transfer a token that waits is delivered. -/
theorem pending_of_take {p : Pins w} {s : Block w} (h : inputTransfer p s = true) :
    s.pending = if outputTransfer p s then [s.oTok] else [] := by
  obtain ⟨hrst, _, _, hready⟩ := (inputTransfer_iff p s).1 h
  rw [outputTransfer_eq s hrst, Block.pending]
  rcases hready with hv | hr
  · simp [hv]
  · simp [hr]

/-- The two records grow by what the two ports transfer at the edge (R41, R47). -/
theorem clockEdge_records {p : Pins w} {s t : Block w} (hrst : p.rst = false) (hinit : s.phase ≠ .init)
    (h : clockEdge p s = .next ⟨w, t⟩) :
    t.taken = s.taken ++ (if inputTransfer p s && !p.inEos then [p.inData] else []) ∧
    t.delivered = s.delivered ++ (if outputTransfer p s then [s.oTok] else []) := by
  rcases clockEdge_cases hrst hinit with
    ⟨htake, heos, hedge⟩ | ⟨htake, heos, hedge⟩ | ⟨htake, hpop, hedge⟩ | ⟨htake, hpop, hedge⟩ <;>
    rw [hedge] at h <;> rw [htake]
  · obtain ⟨u, hu, hut⟩ := onBlock_eq_next.1 h
    cases hut
    obtain ⟨htaken, hdelivered⟩ := transferByte_records hu
    rw [heos, htaken, hdelivered, pending_of_take htake]
    exact ⟨rfl, rfl⟩
  · cases h
    rw [heos, endStream_taken, endStream_delivered, popped_taken, popped_delivered, pending_of_take htake]
    exact ⟨(List.append_nil _).symm, rfl⟩
  · cases h
    rw [hpop]
    exact ⟨(List.append_nil _).symm, rfl⟩
  · cases h
    rw [hpop]
    exact ⟨(List.append_nil _).symm, (List.append_nil _).symm⟩

/-- Settles O36 (`clockEdge_records`). -/
theorem transfersAreExact : Obligations.TransfersAreExact := by
  intro w p s t hrst hinit h
  obtain ⟨htaken, hdelivered⟩ := clockEdge_records hrst hinit h
  have hcond : (inputTransfer p s && !p.inEos) = (p.inValid && !p.inEos && s.inReady p.outReady) := by
    rw [inputTransfer, hrst, Bool.not_false, Bool.true_and, Bool.and_right_comm]
  rw [hcond] at htaken
  rw [outputTransfer_eq s hrst] at hdelivered
  exact ⟨htaken, hdelivered⟩

/-! ### One step -/

theorem step_of_free {s : Block w} (h : s.stim = []) :
    step ⟨w, s⟩ = clockEdge (Config.freePins w s.freeEdges) { s with freeEdges := s.freeEdges + 1 } := by
  simp only [step, stepBlock, h]

theorem step_of_edge {s : Block w} {p : Pins w} {rest : List (Stimulus w)} (h : s.stim = .edge p :: rest) :
    step ⟨w, s⟩ = clockEdge p { s with stim := rest } := by
  simp only [step, stepBlock, h]

theorem step_of_word {s : Block w} {x : EncWord} {rest : List (Stimulus w)} {i : Instr}
    (h : s.stim = .word x :: rest) (hi : decode w s.bidx x = .ok i) :
    step ⟨w, s⟩ = exec i ⟨w, { s with stim := rest }⟩ := by
  simp only [step, stepBlock, h, hi]

theorem step_of_no_word {s : Block w} {x : EncWord} {rest : List (Stimulus w)} {e : DecodeError}
    (h : s.stim = .word x :: rest) (he : decode w s.bidx x = .error e) :
    step ⟨w, s⟩ = .refused (.notAWord e) := by
  simp only [step, stepBlock, h, he]

/-- Settles O35, by the kinds of stimulus. -/
theorem stepRunsNextStimulus : Obligations.StepRunsNextStimulus := fun _ _ _ =>
  ⟨fun _ h => step_of_edge h, fun _ _ h hi => step_of_word h hi, fun _ _ h he => step_of_no_word h he⟩

/-! ### The widths -/

theorem clockEdge_block {p : Pins w} {s : Block w} {u : State} (h : clockEdge p s = .next u) :
    ∃ t : Block w, u = ⟨w, t⟩ := runOps_block h

theorem step_block {s : Block w} {u : State} (h : step ⟨w, s⟩ = .next u) : ∃ t : Block w, u = ⟨w, t⟩ := by
  cases hstim : s.stim with
  | nil => exact clockEdge_block ((step_of_free hstim).symm.trans h)
  | cons x rest =>
    cases x with
    | edge p => exact clockEdge_block ((step_of_edge hstim).symm.trans h)
    | word x =>
      cases hx : decode w s.bidx x with
      | ok i => exact exec_block ((step_of_word hstim hx).symm.trans h)
      | error e => cases (step_of_no_word hstim hx).symm.trans h

/-- Settles O51: an operation and a step answer a block of the same widths (`exec_block`, `step_block`). -/
theorem widthsNeverChange : Obligations.WidthsNeverChange := by
  refine ⟨fun i s t h => ?_, fun s t h => ?_, rfl, by decide⟩
  · obtain ⟨_, rfl⟩ := exec_block h
    rfl
  · obtain ⟨_, rfl⟩ := step_block h
    rfl

end Sys2Proof.Machine
end

section
/-! What every step keeps (10_state.md R32; 41_stream.md R109): the invariant of a run, operation by operation, then
for an edge and for a step; and the statements about one operation or one edge of a run. -/

namespace Sys2Proof.Machine

variable {w : Widths}

/-! ### Operations in a state of a run -/

theorem popped_runOk {s : Block w} (h : RunOk s) : RunOk s.popped := by
  cases hv : s.oValid with
  | false => rwa [popped_of_empty hv]
  | true =>
    rw [popped_of_valid hv]
    exact popToken_runOk h hv

theorem popped_stim (s : Block w) : s.popped.stim = s.stim := by
  unfold Block.popped
  split <;> rfl

/-- A byte in the row that the byte index says. -/
theorem exec_byteRow_inv {s : Block w} (b : Byte) (h : RunInv s) (hen : s.inputEnabled = true) :
    ∃ t, exec (if s.bidx < 5 then .byteStore b else .byteComplete b) ⟨w, s⟩ = .next ⟨w, t⟩ ∧ RunInv t := by
  obtain ⟨hp, hv⟩ := (inputEnabled_iff s).1 hen
  obtain ⟨t, ht, hrun, hstim, _⟩ := acceptByte_runOk b (h.runOk hp) hv
  refine ⟨t, ?_, hrun.inv (hstim ▸ h.stim_known)⟩
  rw [exec_byteRow_of_enabled b hen]
  exact onBlock_next ht

/-- REC in RUN: six transfers (R69). -/
theorem exec_recLine_of_runOk {s : Block w} (p : PackedReal) (h : RunOk s) :
    ∃ t, exec (.recLine p) ⟨w, s⟩ = .next ⟨w, t⟩ ∧ RunOk t ∧ SameControl s t ∧ t.stim = s.stim ∧
      t.taken = s.taken ++ (List.range 6).map (literalByte p) := by
  obtain ⟨s1, h1, r1, m1, k1⟩ := transferByte_runOk (literalByte p 0) h
  obtain ⟨s2, h2, r2, m2, k2⟩ := transferByte_runOk (literalByte p 1) r1
  obtain ⟨s3, h3, r3, m3, k3⟩ := transferByte_runOk (literalByte p 2) r2
  obtain ⟨s4, h4, r4, m4, k4⟩ := transferByte_runOk (literalByte p 3) r3
  obtain ⟨s5, h5, r5, m5, k5⟩ := transferByte_runOk (literalByte p 4) r4
  obtain ⟨s6, h6, r6, m6, k6⟩ := transferByte_runOk (literalByte p 5) r5
  refine ⟨s6, ?_, r6, ?_, by rw [m6, m5, m4, m3, m2, m1], ?_⟩
  · unfold exec execRecLine
    refine onBlock_next ((if_pos h.1).trans ?_)
    rw [h1, andThen_next_left, h2, andThen_next_left, h3, andThen_next_left, h4, andThen_next_left, h5,
      andThen_next_left, h6]
  · exact (transferByte_sameControl h1).trans <| (transferByte_sameControl h2).trans <|
      (transferByte_sameControl h3).trans <| (transferByte_sameControl h4).trans <|
      (transferByte_sameControl h5).trans (transferByte_sameControl h6)
  · rw [k6, k5, k4, k3, k2, k1]
    simp only [List.append_assoc]
    rfl

/-- Every operation the environment can ask for, in the row its byte index says, keeps the invariant. -/
theorem exec_inv {i : Instr} {s : Block w} (h : RunInv s) (hop : isOperation i = true)
    (hrow : i.rowAt s.bidx = true) : ∃ t, exec i ⟨w, s⟩ = .next ⟨w, t⟩ ∧ RunInv t := by
  have hdrive : ∀ p, RunInv (driveResult p s) := fun p => h.withOwn s.stim s.freeEdges _ h.stim_known
  cases i with
  | decode48Zero => exact ⟨driveResult 0 s, rfl, hdrive 0⟩
  | decode48Normal e sgn m => exact ⟨driveResult (assembleReal e sgn m) s, rfl, hdrive _⟩
  | byteStore b =>
    by_cases hen : s.inputEnabled = true
    · have hlt : s.bidx < 5 := by simpa [Instr.rowAt] using hrow
      simpa only [if_pos hlt] using exec_byteRow_inv b h hen
    · exact ⟨s, exec_byteStore_of_not_enabled hen b, h⟩
  | byteComplete b =>
    by_cases hen : s.inputEnabled = true
    · have hnlt : ¬s.bidx < 5 := by simpa [Instr.rowAt] using hrow
      simpa only [if_neg hnlt] using exec_byteRow_inv b h hen
    · exact ⟨s, exec_byteComplete_of_not_enabled hen b, h⟩
  | eos =>
    by_cases hen : s.inputEnabled = true
    · obtain ⟨hp, hv⟩ := (inputEnabled_iff s).1 hen
      exact ⟨endStream s, exec_eos_of_enabled hen, endStream_inv (h.runOk hp) hv h.stim_known⟩
    · exact ⟨s, exec_eos_of_not_enabled hen, h⟩
  | recLine p =>
    by_cases hp : s.phase = .run
    · obtain ⟨t, ht, hrun, _, hstim, _⟩ := exec_recLine_of_runOk p (h.runOk hp)
      exact ⟨t, ht, hrun.inv (hstim ▸ h.stim_known)⟩
    · exact ⟨s, exec_recLine_of_not_run hp p, h⟩
  | start n iv =>
    by_cases hp : s.phase = .init
    · exact ⟨_, exec_start_of_init n iv hp, latchConfig_inv h hp _ iv⟩
    · exact ⟨s, exec_start_of_not_init hp n iv, h⟩
  | pop =>
    cases hv : s.oValid with
    | false => exact ⟨s, exec_pop_of_empty hv, h⟩
    | true => exact ⟨_, exec_pop_of_valid hv, popToken_inv h hv⟩
  | reset => exact ⟨_, exec_reset s, resetBlock_inv h.stim_known⟩
  | value sor eor reactor ticks col data => cases hop
  | endTok truncRecord truncRow reactor ticks col => cases hop

/-! ### Edges and steps of a run -/

theorem clockEdge_inv {s : Block w} (p : Pins w) (h : RunInv s) :
    ∃ t, clockEdge p s = .next ⟨w, t⟩ ∧ RunInv t := by
  cases hrst : p.rst with
  | true => exact ⟨_, clockEdge_of_rst s hrst, resetBlock_inv h.stim_known⟩
  | false =>
    by_cases hinit : s.phase = .init
    · rw [clockEdge_of_init hrst hinit]
      exact ⟨_, exec_start_of_init _ _ hinit, latchConfig_inv h hinit _ _⟩
    · rcases clockEdge_cases hrst hinit with
        ⟨htake, _, hedge⟩ | ⟨htake, _, hedge⟩ | ⟨_, hpop, hedge⟩ | ⟨_, _, hedge⟩ <;> rw [hedge]
      · obtain ⟨_, _, hp, _⟩ := (inputTransfer_iff p s).1 htake
        obtain ⟨t, ht, hrun, hstim, _⟩ := transferByte_runOk p.inData (h.runOk hp)
        exact ⟨t, onBlock_next ht, hrun.inv (hstim ▸ h.stim_known)⟩
      · obtain ⟨_, _, hp, _⟩ := (inputTransfer_iff p s).1 htake
        exact ⟨_, rfl, endStream_inv (popped_runOk (h.runOk hp)) (popped_oValid s)
          (popped_stim s ▸ h.stim_known)⟩
      · rw [outputTransfer_eq s hrst, Bool.and_eq_true] at hpop
        obtain ⟨hv, _⟩ := hpop
        exact ⟨_, rfl, popToken_inv h hv⟩
      · exact ⟨s, rfl, h⟩

/-- Settles O47, by the kinds of stimulus: an edge (`clockEdge_inv`) or a word the spec knows, which decodes to an
operation in its row (`exec_inv`). -/
theorem stepKeepsRunInvariant : Obligations.StepKeepsRunInvariant := by
  intro w s h
  cases hstim : s.stim with
  | nil =>
    rw [step_of_free hstim]
    exact clockEdge_inv _ (h.withOwn s.stim (s.freeEdges + 1) s.results h.stim_known)
  | cons x rest =>
    have hknown : ∀ y ∈ x :: rest, y.known = true := hstim ▸ h.stim_known
    have hrest : RunInv { s with stim := rest } :=
      h.withOwn rest s.freeEdges s.results fun y hy => hknown y (List.mem_cons_of_mem x hy)
    cases x with
    | edge p =>
      rw [step_of_edge hstim]
      exact clockEdge_inv p hrest
    | word x =>
      obtain ⟨i, hi, hop, hrow⟩ := decode_of_known (x := s.bidx) (hknown _ List.mem_cons_self)
      rw [step_of_word hstim hi]
      exact exec_inv hrest hop hrow

/-- Settles O46: RESET meets the invariant, and changes nothing of the state after it. -/
theorem resetMeetsRunInvariant : Obligations.ResetMeetsRunInvariant := fun w stim h =>
  resetBlock_inv (s := { Block.reset w with stim := stim }) h

/-! ### One edge or one operation of a run -/

/-- Settles O38: with a ready consumer an offered token is an input transfer and a waiting one an output transfer;
that the edge completes is `clockEdge_inv`. -/
theorem blockNeverBlocksItself : Obligations.BlockNeverBlocksItself := by
  intro w p s h hrst hready
  obtain ⟨t, ht, _⟩ := clockEdge_inv p h
  refine ⟨fun hp hvalid => ⟨t, ht, fun heos => ?_, fun heos => ?_⟩, fun hp hv => ⟨t, ht, ?_⟩⟩
  · have htake : inputTransfer p s = true := (inputTransfer_iff p s).2 ⟨hrst, hvalid, hp, .inr hready⟩
    rw [clockEdge_of_take_eos htake heos] at ht
    cases ht
    exact endStream_phase _
  · have htake : inputTransfer p s = true := (inputTransfer_iff p s).2 ⟨hrst, hvalid, hp, .inr hready⟩
    obtain ⟨htaken, _⟩ := clockEdge_records hrst (by simp [hp]) ht
    rwa [htake, heos] at htaken
  · have hinit : s.phase ≠ .init := by rcases hp with hp | hp <;> simp [hp]
    obtain ⟨_, hdelivered⟩ := clockEdge_records hrst hinit ht
    rwa [outputTransfer_eq s hrst, hv, hready] at hdelivered

theorem recordOpen_iff {s : Block w} (h : s.Counts) : s.recordOpen = true ↔ s.taken.length % 6 ≠ 0 := by
  rw [Block.recordOpen, bne_iff_ne, ne_eq, ← BitVec.toNat_inj, h.bidx_eq]
  rfl

theorem rowOpen_iff {s : Block w} (h : s.Counts) :
    s.rowOpen = true ↔ s.taken.length / 6 % s.cfgNv.toNat ≠ 0 := by
  rw [Block.rowOpen, bne_iff_ne, ne_eq, ← BitVec.toNat_inj, h.col_eq]
  rfl

/-- Settles O27: err[2] is written where a record or a row is open, which is when the bytes taken do not divide into
records of 6 bytes and those into rows of cfg_nv records. -/
theorem truncatedRecordExactlyWhenShort : Obligations.TruncatedRecordExactlyWhenShort := by
  intro w s h hp hv
  obtain ⟨hcounts, _⟩ := h.run hp
  refine ⟨endStream s, exec_eos_of_enabled (inputEnabled_of_run hp hv), ?_, ?_, ?_, ?_, endStream_phase s⟩
  · have hbit : (endStream s).err.getLsbD 2 = (s.recordOpen || s.rowOpen) := by
      rw [endStream_err]
      exact writeErr_getLsbD .truncatedRecord .truncatedRecord _ _
    rw [hbit, Bool.or_eq_true, recordOpen_iff hcounts, rowOpen_iff hcounts, Nat.mod_mul]
    have hmul : 6 * (s.taken.length / 6 % s.cfgNv.toNat) = 0 ↔ s.taken.length / 6 % s.cfgNv.toNat = 0 := by
      simp
    omega
  · rw [endStream_oTok]
    exact recordOpen_iff hcounts
  · rw [endStream_oTok]
    exact rowOpen_iff hcounts
  · rw [endStream_oTok]
    exact hcounts.col_eq

/-- A further record of the source leaves the records before it as they were. -/
theorem recordAt_append (src l : List Byte) {k : Nat} (h : k < recordCount src) :
    recordAt (src ++ l) k = recordAt src k := by
  have hle := Nat.div_mul_le_self src.length 6
  unfold recordCount Config.recBytes at h
  unfold recordAt
  rw [List.getD_append _ _ _ _ (by omega), List.getD_append _ _ _ _ (by omega),
    List.getD_append _ _ _ _ (by omega), List.getD_append _ _ _ _ (by omega),
    List.getD_append _ _ _ _ (by omega), List.getD_append _ _ _ _ (by omega)]

theorem recordCount_append_record (src l : List Byte) (h : l.length = 6) :
    recordCount (src ++ l) = recordCount src + 1 := by
  unfold recordCount Config.recBytes
  rw [List.length_append, h]
  omega

/-- Six more bytes of the source add one value, wherever in a record the source stood. -/
theorem outValues_append_record (nv : BitVec w.nvW) (iv : BitVec 8) (src l : List Byte) (h : l.length = 6) :
    outValues nv iv (src ++ l) = outValues nv iv src ++ [outValue nv iv (src ++ l) (recordCount src)] := by
  unfold outValues
  rw [recordCount_append_record src l h, List.range_succ, List.map_append]
  congr 1
  apply List.map_congr_left
  intro k hk
  rw [outValue, outValue, recordAt_append src l (List.mem_range.1 hk)]

/-- Settles O29: six transfers keep RunOk (`exec_recLine_of_runOk`), and the counters and tokens of RunOk are functions
of the bytes taken, which are six more. -/
theorem recTakesSixBytesAnywhere : Obligations.RecTakesSixBytesAnywhere := by
  intro p w s h
  refine ⟨fun hp => exec_recLine_of_not_run hp p, fun hp => ?_⟩
  obtain ⟨_, hcounts, _, htokens⟩ := h.runOk hp
  obtain ⟨t, ht, ⟨_, hcounts', _, htokens'⟩, hsame, _, htaken⟩ := exec_recLine_of_runOk p (h.runOk hp)
  have hsix : ((List.range 6).map (literalByte p)).length = 6 := rfl
  have hrecords : recordCount t.taken = recordCount s.taken + 1 :=
    htaken ▸ recordCount_append_record s.taken _ hsix
  refine ⟨t, ht, htaken, ?_, ?_, outValue s.cfgNv s.cfgIv t.taken (recordCount s.taken), ?_⟩
  · have hmod : t.taken.length % 6 = s.taken.length % 6 := by
      rw [htaken, List.length_append, hsix, Nat.add_mod_right]
    exact BitVec.eq_of_toNat_eq (hcounts'.bidx_eq.trans (hmod.trans hcounts.bidx_eq.symm))
  · rw [hcounts'.read_eq, hrecords, hcounts.read_eq]
    exact (ofNat_succ _ _).symm
  · rw [htokens', htokens, hsame.nv_eq, hsame.iv_eq, htaken]
    exact outValues_append_record _ _ _ _ hsix

theorem RunInv.err_eq_zero {s : Block w} (h : RunInv s) (hp : s.phase = .init ∨ s.phase = .run) :
    s.err = 0 := by
  rcases hp with hp | hp
  · obtain ⟨_, _, _, herr⟩ := h.init hp
    exact herr
  · obtain ⟨_, herr, _⟩ := h.run hp
    exact herr

/-- Settles O41 (`exec_control_cases`): besides RESET only START and EOS write err, each in a phase in which a run has
no bit set. -/
theorem errorBitsAreSticky : Obligations.ErrorBitsAreSticky := by
  refine fun w => ⟨fun i s t k h ht hi hk => ?_, fun s => ⟨_, exec_reset s, resetBlock_err s⟩,
    fun s h hp => h.err_eq_zero hp⟩
  have hclear : ¬(s.phase = .init ∨ s.phase = .run) := fun hp => by
    simp [h.err_eq_zero hp] at hk
  rcases exec_control_cases ht with hsame | ⟨hreset, _⟩ | ⟨_, _, _, hp, _⟩ | ⟨_, hen, _⟩
  · rwa [hsame.err_eq]
  · exact absurd hreset hi
  · exact absurd (.inl hp) hclear
  · exact absurd (.inr ((inputEnabled_iff s).1 hen).1) hclear

end Sys2Proof.Machine
end

section
/-! The counters and the time a consumer reads off them (10_state.md R26 to R28; 41_stream.md R105, R112). -/

namespace Sys2Proof.Machine

variable {w : Widths}

/-! ### What the row and record counters can become -/

/-- The three counters of R26 to R28 are the same in the two states. -/
def SameCounters (s t : Block w) : Prop :=
  t.numbersRead = s.numbersRead ∧ t.reactor = s.reactor ∧ t.rowsPrinted = s.rowsPrinted

/-- From `s` to `t` one record was counted, and with it at most one row. -/
def OneRecord (s t : Block w) : Prop :=
  t.numbersRead = s.numbersRead + 1 ∧
    ((t.reactor = s.reactor ∧ t.rowsPrinted = s.rowsPrinted) ∨
     (t.reactor = s.reactor ∧ t.rowsPrinted = s.rowsPrinted + 1) ∨
     (t.reactor = s.reactor + 1 ∧ t.rowsPrinted = 0))

theorem SameCounters.refl (s : Block w) : SameCounters s s := ⟨rfl, rfl, rfl⟩

theorem SameCounters.trans {s t u : Block w} (h : SameCounters s t) (k : SameCounters t u) :
    SameCounters s u := by
  obtain ⟨h1, h2, h3⟩ := h
  obtain ⟨k1, k2, k3⟩ := k
  exact ⟨k1.trans h1, k2.trans h2, k3.trans h3⟩

theorem SameCounters.trans_oneRecord {s t u : Block w} (h : SameCounters s t) (k : OneRecord t u) :
    OneRecord s u := by
  obtain ⟨h1, h2, h3⟩ := h
  rwa [OneRecord, h1, h2, h3] at k

theorem OneRecord.trans_sameCounters {s t u : Block w} (h : OneRecord s t) (k : SameCounters t u) :
    OneRecord s u := by
  obtain ⟨k1, k2, k3⟩ := k
  rwa [OneRecord, k1, k2, k3]

theorem completeRecord_oneRecord {b : Byte} {s t : Block w} (h : completeRecord b s = .next t) :
    OneRecord s t := by
  rcases completeRecord_cases h with ⟨_, rfl⟩ | ⟨_, _, _, ⟨_, rfl⟩ | ⟨_, rfl⟩⟩
  · exact ⟨rfl, .inl ⟨rfl, rfl⟩⟩
  · exact ⟨rfl, .inr (.inr ⟨rfl, rfl⟩)⟩
  · exact ⟨rfl, .inr (.inl ⟨rfl, rfl⟩)⟩

/-- What `n` transfers, at most six, make of the byte index and the counters. -/
def AfterBytes (n : Nat) (s t : Block w) : Prop :=
  s.bidx.toNat < 6 ∧
    ((s.bidx.toNat + n < 6 ∧ t.bidx.toNat = s.bidx.toNat + n ∧ SameCounters s t) ∨
     (6 ≤ s.bidx.toNat + n ∧ t.bidx.toNat + 6 = s.bidx.toNat + n ∧ OneRecord s t))

theorem afterBytes_one {b : Byte} {s t : Block w} (h : transferByte b s = .next t) : AfterBytes 1 s t := by
  obtain ⟨_, _, _, _, ⟨hlt, hb, hsame⟩ | ⟨heq, hb, hone⟩⟩ := transferByte_counters h
  · exact ⟨by omega, .inl ⟨by omega, hb, hsame⟩⟩
  · exact ⟨by omega, .inr ⟨by omega, by omega, hone⟩⟩

/-- One byte more: the byte that fills the record is the only one of six. -/
theorem AfterBytes.next {n : Nat} {b : Byte} {s t u : Block w} (hn : n < 6) (h : AfterBytes n s t)
    (hu : transferByte b t = .next u) : AfterBytes (n + 1) s u := by
  obtain ⟨hs, hcase⟩ := h
  obtain ⟨_, ⟨hlt, hb, hsame⟩ | ⟨hge, hb, hone⟩⟩ := afterBytes_one hu
  · rcases hcase with ⟨_, hb', hsame'⟩ | ⟨_, hb', hone'⟩
    · exact ⟨hs, .inl ⟨by omega, by omega, hsame'.trans hsame⟩⟩
    · exact ⟨hs, .inr ⟨by omega, by omega, hone'.trans_sameCounters hsame⟩⟩
  · rcases hcase with ⟨_, hb', hsame'⟩ | ⟨_, hb', _⟩
    · exact ⟨hs, .inr ⟨by omega, by omega, hsame'.trans_oneRecord hone⟩⟩
    · omega

theorem AfterBytes.oneRecord {s t : Block w} (h : AfterBytes 6 s t) : OneRecord s t := by
  obtain ⟨_, ⟨hlt, _⟩ | ⟨_, _, hone⟩⟩ := h
  · omega
  · exact hone

/-- The operations other than RESET that count nothing, and the two that count one record. -/
theorem exec_counters_cases {i : Instr} {s t : Block w} (h : exec i ⟨w, s⟩ = .next ⟨w, t⟩)
    (hi : i ≠ .reset) :
    SameCounters s t ∨ (((∃ b, i = .byteComplete b) ∨ ∃ p, i = .recLine p) ∧ OneRecord s t) := by
  have hpush : ∀ k : OutTok w, SameCounters s (pushWhenEnabled k s) := fun k => by
    rcases pushWhenEnabled_cases k s with ⟨_, hk⟩ | ⟨_, hk⟩ <;> rw [hk] <;> exact ⟨rfl, rfl, rfl⟩
  cases i with
  | decode48Zero => cases h; exact .inl ⟨rfl, rfl, rfl⟩
  | decode48Normal e sgn m => cases h; exact .inl ⟨rfl, rfl, rfl⟩
  | byteStore b =>
    rcases execByteStore_cases h with ⟨_, _, hu⟩ | ⟨_, hu⟩ <;> cases hu
    · exact .inl ⟨rfl, rfl, rfl⟩
    · exact .inl (.refl s)
  | byteComplete b =>
    rcases execByteComplete_cases h with ⟨_, _, _, hc, hu⟩ | ⟨_, hu⟩ <;> cases hu
    · have htake : SameCounters s (takeByte b s) := ⟨rfl, rfl, rfl⟩
      exact .inr ⟨.inl ⟨b, rfl⟩, htake.trans_oneRecord (completeRecord_oneRecord hc)⟩
    · exact .inl (.refl s)
  | eos =>
    rcases execEos_cases h with ⟨_, hu⟩ | ⟨_, hu⟩ <;> cases hu
    · exact .inl ⟨endStream_numbersRead s, endStream_reactor s, endStream_rowsPrinted s⟩
    · exact .inl (.refl s)
  | recLine p =>
    rcases execRecLine_cases h with ⟨_, _, _, _, _, _, _, h0, h1, h2, h3, h4, h5, hu⟩ | ⟨_, hu⟩ <;>
      cases hu
    · have two := (afterBytes_one h0).next (by omega) h1
      have three := two.next (by omega) h2
      have four := three.next (by omega) h3
      have five := four.next (by omega) h4
      have six := five.next (by omega) h5
      exact .inr ⟨.inr ⟨p, rfl⟩, six.oneRecord⟩
    · exact .inl (.refl s)
  | start n iv =>
    rcases execStart_cases h with ⟨_, hu⟩ | ⟨_, hu⟩ <;> cases hu
    · exact .inl ⟨latchConfig_numbersRead _ iv s, latchConfig_reactor _ iv s, latchConfig_rowsPrinted _ iv s⟩
    · exact .inl (.refl s)
  | pop =>
    rcases execPop_cases h with ⟨_, hu⟩ | ⟨_, hu⟩ <;> cases hu
    · exact .inl ⟨rfl, rfl, rfl⟩
    · exact .inl (.refl s)
  | reset => exact absurd rfl hi
  | value sor eor reactor ticks col data => cases h; exact .inl (hpush _)
  | endTok truncRecord truncRow reactor ticks col => cases h; exact .inl (hpush _)

/-- Settles O42 (`exec_counters_cases`). -/
theorem countersOnlyCountRecords : Obligations.CountersOnlyCountRecords :=
  fun _ _ _ _ h hi => exec_counters_cases h hi

/-! ### The time of the row in progress (R26) -/

/-- Settles O43: RowComplete adds one tick, or returns ticks to 0 (`rowComplete_of_legal`); a tick is cfg_iv minutes,
and 8 bits hold the ticks of a reactor. -/
theorem rowCompletionAdvancesTime : Obligations.RowCompletionAdvancesTime := by
  intro w s hiv hrows
  obtain ⟨d, hdpd, _, hd⟩ := rowsPerReactor_of_legal hiv
  rw [hdpd] at hrows ⊢
  rw [rowComplete_of_legal hiv, hdpd]
  by_cases hroll : d < s.rowsPrinted.toNat
  · rw [if_pos hroll]
    refine ⟨_, rfl, fun hle => by omega, fun _ => ⟨?_, rfl⟩⟩
    simp [Block.time, elapsedHours]
  · rw [if_neg hroll]
    refine ⟨_, rfl, fun _ => ⟨?_, rfl⟩, fun hlt => by omega⟩
    have hticks : (s.rowsPrinted + 1#8).toNat = s.rowsPrinted.toNat + 1 := toNat_succ _ (by omega)
    show elapsedHours s.cfgIv (s.rowsPrinted + 1#8).toNat = elapsedHours s.cfgIv s.rowsPrinted.toNat + _
    rw [hticks, elapsedHours, elapsedHours]
    push_cast
    ring

end Sys2Proof.Machine
end

section
/-! The time sums in binary64 (41_stream.md R112; log entry 16). A sum is a number in units of 2^-55; in the binade of
`2^(52 + k)` rounding gives the nearest multiple of `2^k`, so that as long as the sums stay in one binade each addition
adds the same whole number. -/

namespace Sys2Proof.Machine

/-! ### Rounding to 53 bits -/

theorem roundTo53_eq_ite {x u : Nat} (hu : 2 ^ (x.log2 - 52) = u) :
    roundTo53 x = if u < 2 * (x % u) ∨ (2 * (x % u) = u ∧ x / u % 2 = 1) then (x / u + 1) * u else x / u * u := by
  subst hu
  simp [roundTo53]

/-- A number with at most 53 significant bits is kept. -/
theorem roundTo53_of_dvd {x : Nat} (h : 2 ^ (x.log2 - 52) ∣ x) : roundTo53 x = x := by
  have hpos : 0 < 2 ^ (x.log2 - 52) := Nat.two_pow_pos _
  have hmod : x % 2 ^ (x.log2 - 52) = 0 := Nat.mod_eq_zero_of_dvd h
  rw [roundTo53_eq_ite rfl, if_neg (by omega), Nat.div_mul_cancel h]

/-- In the binade of `2^(52 + k)` a number is rounded to a multiple of `2^k` nearer than half of `2^k`. -/
theorem roundTo53_eq {x y : Nat} (k : Nat) (hlow : 2 ^ (52 + k) ≤ x) (hhigh : x < 2 ^ (52 + k + 1))
    (hdvd : 2 ^ k ∣ y) (habove : 2 * x < 2 * y + 2 ^ k) (hbelow : 2 * y < 2 * x + 2 ^ k) :
    roundTo53 x = y := by
  have hx : x ≠ 0 := by
    have := Nat.two_pow_pos (52 + k)
    omega
  have hk : x.log2 - 52 = k := by
    rw [(Nat.log2_eq_iff hx).2 ⟨hlow, hhigh⟩]
    omega
  obtain ⟨m, rfl⟩ := hdvd
  rw [roundTo53_eq_ite (congrArg (2 ^ ·) hk)]
  generalize 2 ^ k = u at *
  have hlt : x % u < u := Nat.mod_lt x (by omega)
  have hdm := Nat.div_add_mod x u
  by_cases hle : u * m ≤ x
  case pos =>
    have hq : x / u = m := by
      rw [show x = (x - u * m) + u * m by omega, Nat.add_mul_div_left _ _ (by omega),
        Nat.div_eq_of_lt (by omega), Nat.zero_add]
    rw [hq] at hdm ⊢
    rw [if_neg (by omega), Nat.mul_comm]
  case neg =>
    obtain ⟨l, rfl⟩ : ∃ l, m = l + 1 := Nat.exists_eq_succ_of_ne_zero (by rintro rfl; omega)
    have hmul : u * (l + 1) = u * l + u := Nat.mul_succ u l
    have hq : x / u = l := by
      rw [show x = (x - u * l) + u * l by omega, Nat.add_mul_div_left _ _ (by omega),
        Nat.div_eq_of_lt (by omega), Nat.zero_add]
    rw [hq] at hdm ⊢
    rw [if_pos (by omega), Nat.mul_comm]

/-! ### The sums -/

/-- While every addition of `c` is rounded to an addition of `d`, the sums are linear. -/
theorem accumulatedTime_linear {c d v j n : Nat} (hstart : accumulatedTime c j = v)
    (hround : ∀ i, i < n → roundTo53 (v + i * d + c) = v + (i + 1) * d) {i : Nat} (hi : i ≤ n) :
    accumulatedTime c (j + i) = v + i * d := by
  induction i with
  | zero => simpa using hstart
  | succ i ih => rw [← Nat.add_assoc, accumulatedTime, ih (by omega), hround i (by omega)]

/-- Intervals 15 and 30: the increment is a multiple of 2^53, and so is every sum, which is then exact. -/
theorem accumulatedTime_exact {a j : Nat} (h : j * a < 2 ^ 53) :
    accumulatedTime (a * 2 ^ 53) j = j * (a * 2 ^ 53) := by
  have hkept : ∀ m, m < 2 ^ 53 → roundTo53 (m * 2 ^ 53) = m * 2 ^ 53 := by
    intro m hm
    refine roundTo53_of_dvd ((Nat.pow_dvd_pow 2 ?_).trans (Nat.dvd_mul_left (2 ^ 53) m))
    by_cases hz : m * 2 ^ 53 = 0
    · rw [hz]
      decide
    · have hlog : (m * 2 ^ 53).log2 < 106 := (Nat.log2_lt hz).2 (by omega)
      omega
  have hround : ∀ i, i < j → roundTo53 (0 + i * (a * 2 ^ 53) + a * 2 ^ 53) = 0 + (i + 1) * (a * 2 ^ 53) := by
    intro i hi
    have hle : (i + 1) * a ≤ j * a := Nat.mul_le_mul_right a hi
    rw [Nat.zero_add, Nat.zero_add, ← Nat.add_one_mul, ← Nat.mul_assoc, hkept _ (by omega)]
  have hlinear := accumulatedTime_linear (v := 0) (j := 0) rfl hround le_rfl
  rwa [Nat.zero_add, Nat.zero_add] at hlinear

/-- After `j` rows of increment `c` the sum is `v`, and no sum so far is further than 7168 / 6 units of 2^-55 from
ticks/6 hours. -/
def SumsNear (c j v : Nat) : Prop :=
  accumulatedTime c j = v ∧ ∀ m, m ≤ j →
    6 * accumulatedTime c m ≤ m * 2 ^ 55 + 7168 ∧ m * 2 ^ 55 ≤ 6 * accumulatedTime c m + 7168

/-- `n` more rows in the binade of `2^(52 + k)`, each adding `d`, the increment rounded to a multiple of `2^k`. -/
theorem SumsNear.piece {c j v : Nat} (h : SumsNear c j v) (k n d : Nat)
    (hnearest : 2 * c < 2 * d + 2 ^ k ∧ 2 * d < 2 * c + 2 ^ k)
    (hbinade : ∀ i, i < n → 2 ^ (52 + k) ≤ v + i * d + c ∧ v + i * d + c < 2 ^ (52 + k + 1) ∧
      2 ^ k ∣ v + (i + 1) * d)
    (hnear : ∀ i, i ≤ n → 6 * (v + i * d) ≤ (j + i) * 2 ^ 55 + 7168 ∧
      (j + i) * 2 ^ 55 ≤ 6 * (v + i * d) + 7168) : SumsNear c (j + n) (v + n * d) := by
  obtain ⟨hstart, hbefore⟩ := h
  have hround : ∀ i, i < n → roundTo53 (v + i * d + c) = v + (i + 1) * d := by
    intro i hi
    obtain ⟨hlow, hhigh, hdvd⟩ := hbinade i hi
    have hsucc := Nat.add_one_mul i d
    exact roundTo53_eq k hlow hhigh hdvd (by omega) (by omega)
  refine ⟨accumulatedTime_linear hstart hround le_rfl, fun m hm => ?_⟩
  by_cases hmj : m ≤ j
  · exact hbefore m hmj
  · obtain ⟨i, rfl⟩ := Nat.exists_eq_add_of_le (Nat.le_of_not_le hmj)
    rw [accumulatedTime_linear hstart hround (by omega)]
    exact hnear i (by omega)

/-- Interval 10: the first three sums one by one (the third is a tie), then binade by binade; the addition that
crosses into the next binade is a piece of its own where the sum is not yet a multiple of the new unit. -/
theorem sumsNear_ten : ∃ v, SumsNear 6004799503160661 145 v := by
  have p3 : SumsNear 6004799503160661 3 (2 ^ 54) := ⟨by decide, by decide⟩
  have p6 := p3.piece 2 3 6004799503160660 (by omega) (fun i _ => by omega) (fun i _ => by omega)
  have p7 := p6.piece 3 1 6004799503160660 (by omega) (fun i _ => by omega) (fun i _ => by omega)
  have p11 := p7.piece 3 4 6004799503160664 (by omega) (fun i _ => by omega) (fun i _ => by omega)
  have p24 := p11.piece 4 13 6004799503160656 (by omega) (fun i _ => by omega) (fun i _ => by omega)
  have p47 := p24.piece 5 23 6004799503160672 (by omega) (fun i _ => by omega) (fun i _ => by omega)
  have p48 := p47.piece 6 1 6004799503160672 (by omega) (fun i _ => by omega) (fun i _ => by omega)
  have p96 := p48.piece 6 48 6004799503160640 (by omega) (fun i _ => by omega) (fun i _ => by omega)
  have p97 := p96.piece 7 1 6004799503160640 (by omega) (fun i _ => by omega) (fun i _ => by omega)
  exact ⟨_, p97.piece 7 48 6004799503160704 (by omega) (fun i _ => by omega) (fun i _ => by omega)⟩

/-- Settles O44 (`accumulatedTime_exact`, `sumsNear_ten`). -/
theorem accumulatedTimeAgrees : Obligations.AccumulatedTimeAgrees := by
  refine ⟨rfl, rfl, rfl, fun j hj => ?_, fun j hj => ?_, fun j hj => ?_⟩
  · exact accumulatedTime_exact (a := 1) (by omega)
  · exact accumulatedTime_exact (a := 2) (by omega)
  · obtain ⟨_, _, hnear⟩ := sumsNear_ten
    obtain ⟨habove, hbelow⟩ := hnear j hj
    generalize accumulatedTime 6004799503160661 j = t at *
    have habove' : 6 * (t : ℚ) ≤ j * 2 ^ 55 + 7168 := by exact_mod_cast habove
    have hbelow' : (j : ℚ) * 2 ^ 55 ≤ 6 * t + 7168 := by exact_mod_cast hbelow
    have hten : elapsedHours 10 j = (j : ℚ) * 10 / 60 := rfl
    rw [hten, abs_le]
    constructor <;> linarith

end Sys2Proof.Machine
end

section
/-! Whole runs (10_state.md R32; 41_stream.md R104, R109; 70_reset_and_hazards.md R157). A run keeps the invariant at
every step, and the invariant says what the tokens, the counters and the end of the run are. -/

namespace Sys2Proof.Machine

variable {w : Widths}

/-- In RUN and DONE the counters are those of the bytes taken. -/
theorem RunInv.counts {s : Block w} (h : RunInv s) (hp : s.phase = .run ∨ s.phase = .done) : s.Counts := by
  rcases hp with hp | hp
  · obtain ⟨hcounts, _⟩ := h.run hp
    exact hcounts
  · obtain ⟨hcounts, _⟩ := h.done hp
    exact hcounts

/-! ### Rows of tokens (R104) -/

/-- The VALUE token of a record in row `q` and column `j` (R109). -/
theorem outValue_of_row (nv : BitVec w.nvW) (iv : BitVec 8) (src : List Byte) {q j : Nat} (hj : j < nv.toNat) :
    outValue nv iv src (nv.toNat * q + j) = {
      eos := false, truncRecord := false, truncRow := false, sor := j == 0, eor := j == nv.toNat - 1,
      reactor := rowReactor w iv q, ticks := rowTicks iv q, col := BitVec.ofNat _ j,
      data := decode48 (recordAt src (nv.toNat * q + j)) } := by
  have hmod : (nv.toNat * q + j) % nv.toNat = j := by rw [Nat.mul_add_mod, Nat.mod_eq_of_lt hj]
  have hdiv : (nv.toNat * q + j) / nv.toNat = q := by
    rw [Nat.mul_add_div (by omega), Nat.div_eq_of_lt hj, Nat.add_zero]
  rw [outValue, hmod, hdiv]

theorem outValues_getElem? (nv : BitVec w.nvW) (iv : BitVec 8) (src : List Byte) {k : Nat}
    (h : k < recordCount src) : (outValues nv iv src)[k]? = some (outValue nv iv src k) := by
  simp [outValues, h]

theorem outValues_length (nv : BitVec w.nvW) (iv : BitVec 8) (src : List Byte) :
    (outValues nv iv src).length = recordCount src := by
  simp [outValues]

/-- A token of a run that closes a row is the VALUE token of a record, and the records before it are in the run. -/
theorem eor_token_is_value {s : Block w} (h : RunInv s) (hp : s.phase = .run ∨ s.phase = .done) {k : Nat}
    {u : OutTok w} (hu : (s.delivered ++ s.pending)[k]? = some u) (heor : u.eor = true) :
    u = outValue s.cfgNv s.cfgIv s.taken k ∧ ∀ i, i ≤ k →
      (s.delivered ++ s.pending)[i]? = some (outValue s.cfgNv s.cfgIv s.taken i) := by
  have hsplit : ∃ l, s.delivered ++ s.pending = outValues s.cfgNv s.cfgIv s.taken ++ l ∧
      ∀ v ∈ l, v.eor = false := by
    rcases hp with hp | hp
    · obtain ⟨_, _, htokens⟩ := h.run hp
      exact ⟨[], by rw [htokens, List.append_nil], by simp⟩
    · obtain ⟨hcounts, _, htokens⟩ := h.done hp
      refine ⟨[outEnd s.cfgNv s.cfgIv s.taken], ?_, by simp [outEnd]⟩
      rw [htokens, out, (legalNoDiVars_iff _).2 hcounts.nv_legal, hcounts.iv_legal]
      rfl
  obtain ⟨l, hl, hend⟩ := hsplit
  have hk : k < recordCount s.taken := by
    by_contra hge
    rw [hl, List.getElem?_append_right (by rw [outValues_length]; omega)] at hu
    have := hend u (List.mem_of_getElem? hu)
    rw [heor] at this
    cases this
  have hvalue : ∀ i, i ≤ k →
      (s.delivered ++ s.pending)[i]? = some (outValue s.cfgNv s.cfgIv s.taken i) := fun i hi => by
    rw [hl, List.getElem?_append_left (by rw [outValues_length]; omega), outValues_getElem? _ _ _ (by omega)]
  refine ⟨?_, hvalue⟩
  rw [hvalue k le_rfl] at hu
  exact (Option.some.inj hu).symm

/-- Settles O45: the token that closes row `q` is that of record `nv * q + (nv - 1)`, and the row's other tokens are
those of the records `nv * q + j` (`outValue_of_row`). -/
theorem closedRowsAreWhole : Obligations.ClosedRowsAreWhole := by
  intro w s k u h hp hu heor
  have hnv : 1 ≤ s.cfgNv.toNat := (h.counts hp).nv_legal
  obtain ⟨rfl, hvalue⟩ := eor_token_is_value h hp hu heor
  have hlast : k % s.cfgNv.toNat = s.cfgNv.toNat - 1 := by simpa [outValue] using heor
  obtain ⟨q, hq⟩ : ∃ q, k = s.cfgNv.toNat * q + (s.cfgNv.toNat - 1) :=
    ⟨k / s.cfgNv.toNat, by rw [← hlast, Nat.div_add_mod]⟩
  refine ⟨by omega, fun j hj => ⟨_, hvalue _ (by omega), ?_⟩⟩
  have hindex : k - (s.cfgNv.toNat - 1) + j = s.cfgNv.toNat * q + j := by omega
  have hcol : (BitVec.ofNat w.nvW j).toNat = j := toNat_ofNat_of_lt (hj.trans s.cfgNv.isLt)
  rw [hindex, outValue_of_row _ _ _ hj, hq, outValue_of_row _ _ _ (by omega)]
  exact ⟨rfl, hcol, rfl, rfl, rfl, rfl⟩

/-! ### Many steps -/

/-- Every state of a run meets the invariant. -/
theorem core_run_inv {s : Block w} (n : Nat) (h : RunInv s) :
    ∃ t : Block w, Host.Core.run Sys2Proof.core n (State.mk w s) = .next (State.mk w t) ∧ RunInv t := by
  induction n generalizing s with
  | zero => exact ⟨s, rfl, h⟩
  | succ n ih =>
    obtain ⟨u, hu, hinv⟩ := stepKeepsRunInvariant w s h
    rw [core_run_succ n hu]
    exact ih hinv

theorem runInv_of_core_run {s t : Block w} {n : Nat} (h : RunInv s)
    (ht : Host.Core.run Sys2Proof.core n (State.mk w s) = .next (State.mk w t)) : RunInv t := by
  obtain ⟨u, hu, hinv⟩ := core_run_inv n h
  rw [hu] at ht
  cases ht
  exact hinv

/-- Settles O49: after the RESET edge the invariant holds, at every later step too, and its clause for DONE with an
empty holding register is what R109 says. -/
theorem everyScheduleDeliversOut : Obligations.EveryScheduleDeliversOut := by
  intro w p stim n s0 s hrst hknown hrun ⟨hdone, hempty⟩
  have hreset : step ⟨w, { s0 with stim := .edge p :: stim }⟩ =
      .next ⟨w, resetBlock { s0 with stim := stim }⟩ :=
    (step_of_edge rfl).trans (clockEdge_of_rst _ hrst)
  rw [core_run_succ n hreset] at hrun
  have hinv : RunInv s := runInv_of_core_run (resetBlock_inv hknown) hrun
  obtain ⟨hcounts, herr, htokens⟩ := hinv.done hdone
  have hpending : s.pending = [] := by simp [Block.pending, hempty]
  rw [hpending, List.append_nil] at htokens
  refine ⟨htokens, ?_, hcounts.read_eq, hcounts.bidx_eq, hcounts.col_eq⟩
  have hbidx : (s.bidx != 0) = (s.taken.length % 6 != 0) := by
    rw [Bool.eq_iff_iff, bne_iff_ne (a := s.taken.length % 6)]
    exact recordOpen_iff hcounts
  have hcol : (s.col != 0) = (s.taken.length / 6 % s.cfgNv.toNat != 0) := by
    rw [Bool.eq_iff_iff, bne_iff_ne (a := s.taken.length / 6 % s.cfgNv.toNat)]
    exact rowOpen_iff hcounts
  rw [herr, hbidx, hcol]

/-! ### The clauses of R32 -/

/-- R32(d), R32(e): only the four control elements can differ from their reset values. -/
theorem Block.Untouched.sameBlock {s : Block w} (h : s.Untouched) :
    SameBlock { Block.reset w with
      phase := s.phase, cfgNv := s.cfgNv, cfgIv := s.cfgIv, err := s.err } s where
  phase_eq := rfl
  nv_eq := rfl
  iv_eq := rfl
  sr_eq := h.sr_eq
  bidx_eq := h.bidx_eq
  col_eq := h.col_eq
  rows_eq := h.rows_eq
  reactor_eq := h.reactor_eq
  read_eq := h.read_eq
  err_eq := rfl
  valid_eq := h.valid_eq
  tok_eq := h.tok_eq

theorem RunInv.bidx_le {s : Block w} (h : RunInv s) : s.bidx.toNat ≤ 5 := by
  have hcounts : s.Counts → s.bidx.toNat ≤ 5 := fun hc => by
    rw [hc.bidx_eq, Config.recBytes]
    omega
  have huntouched : s.Untouched → s.bidx.toNat ≤ 5 := fun hu => by
    rw [hu.bidx_eq]
    decide
  cases hp : s.phase with
  | init =>
    obtain ⟨hu, _⟩ := h.init hp
    exact huntouched hu
  | run => exact hcounts (h.counts (.inl hp))
  | done => exact hcounts (h.counts (.inr hp))
  | fault =>
    obtain ⟨hu, _⟩ := h.fault hp
    exact huntouched hu

/-- R32(f): in DONE nothing but RESET and the POP of a waiting token changes the block. -/
theorem exec_of_done {i : Instr} {s : Block w} (hp : s.phase = .done) (hi : i ≠ .reset)
    (hpop : i = .pop → s.oValid = false) :
    ∃ t : Block w, exec i ⟨w, s⟩ = .next ⟨w, t⟩ ∧ SameBlock s t := by
  have hinit : s.phase ≠ .init := by simp [hp]
  have hrun : s.phase ≠ .run := by simp [hp]
  have hen := not_inputEnabled (s := s) (.inl hrun)
  have hself : SameBlock s s := ⟨rfl, rfl, rfl, rfl, rfl, rfl, rfl, rfl, rfl, rfl, rfl, rfl⟩
  have hdrive : ∀ p, SameBlock s (driveResult p s) := fun _ =>
    ⟨rfl, rfl, rfl, rfl, rfl, rfl, rfl, rfl, rfl, rfl, rfl, rfl⟩
  cases i with
  | decode48Zero => exact ⟨_, rfl, hdrive 0⟩
  | decode48Normal e sgn m => exact ⟨_, rfl, hdrive (assembleReal e sgn m)⟩
  | byteStore b => exact ⟨s, exec_byteStore_of_not_enabled hen b, hself⟩
  | byteComplete b => exact ⟨s, exec_byteComplete_of_not_enabled hen b, hself⟩
  | eos => exact ⟨s, exec_eos_of_not_enabled hen, hself⟩
  | recLine p => exact ⟨s, exec_recLine_of_not_run hrun p, hself⟩
  | start n iv => exact ⟨s, exec_start_of_not_init hinit n iv, hself⟩
  | pop => exact ⟨s, exec_pop_of_empty (hpop rfl), hself⟩
  | reset => exact absurd rfl hi
  | value sor eor reactor ticks col data => exact ⟨s, exec_value_of_not_enabled hen .., hself⟩
  | endTok truncRecord truncRow reactor ticks col => exact ⟨s, exec_endTok_of_not_enabled hen .., hself⟩

/-- R32(g): the three row counters add up to the number of records, while nothing has wrapped. -/
theorem Block.Counts.counting {s : Block w} (h : s.Counts) (hread : recordCount s.taken < 2 ^ w.numreadW)
    (hreact : recordCount s.taken / s.cfgNv.toNat / rowsPerReactor s.cfgIv + 1 < 2 ^ w.reactorW) :
    (s.numbersRead.toNat : Int) =
      (((s.reactor.toNat : Int) - 1) * (rowsPerReactor s.cfgIv : Nat) + s.rowsPrinted.toNat) *
        s.cfgNv.toNat + s.col.toNat := by
  have hreactor : s.reactor.toNat = recordCount s.taken / s.cfgNv.toNat / rowsPerReactor s.cfgIv + 1 := by
    rw [h.reactor_eq, rowReactor, Nat.add_comm, toNat_ofNat_of_lt hreact]
  have hrows := Nat.div_add_mod' (recordCount s.taken / s.cfgNv.toNat) (rowsPerReactor s.cfgIv)
  have hrecords := Nat.div_add_mod' (recordCount s.taken) s.cfgNv.toNat
  rw [h.read_eq, toNat_ofNat_of_lt hread, hreactor, h.rows_eq, h.col_eq, Nat.cast_add, Nat.cast_one,
    add_sub_cancel_right]
  norm_cast
  rw [hrows, hrecords]

/-- R32(h): a token waits in RUN and DONE only, and it is the last one of the run so far. -/
theorem RunInv.oTok_last {s : Block w} (h : RunInv s) (hv : s.oValid = true) :
    (if s.phase = .done then out s.cfgNv s.cfgIv s.taken
      else outValues s.cfgNv s.cfgIv s.taken).getLast? = some s.oTok := by
  have hlast : (s.delivered ++ s.pending).getLast? = some s.oTok := by simp [Block.pending, hv]
  have huntouched : ¬s.Untouched := fun hu => by simp [hu.valid_eq] at hv
  cases hp : s.phase with
  | init =>
    obtain ⟨hu, _⟩ := h.init hp
    exact absurd hu huntouched
  | run =>
    obtain ⟨_, _, htokens⟩ := h.run hp
    rwa [htokens] at hlast
  | done =>
    obtain ⟨_, _, htokens⟩ := h.done hp
    rwa [htokens] at hlast
  | fault =>
    obtain ⟨hu, _⟩ := h.fault hp
    exact absurd hu huntouched

/-- Settles O48: the invariant holds in every state reached, and each clause of R32 follows from it. -/
theorem reachableStatesMeetStatedInvariants : Obligations.ReachableStatesMeetStatedInvariants := by
  intro w stim n s hknown hrun
  have h : RunInv s := runInv_of_core_run (resetMeetsRunInvariant w stim hknown) hrun
  refine ⟨h.bidx_le, fun hp => ?_, fun hp => ?_, fun hp => ?_, fun hp => ?_,
    fun hp i hi hpop => exec_of_done hp hi hpop, fun hp hread hreact => (h.counts hp).counting hread hreact,
    h.oTok_last⟩
  · have hcounts := h.counts hp
    exact ⟨hcounts.nv_legal, (legalInterval_iff_mem _).1 hcounts.iv_legal⟩
  · obtain ⟨hcounts, herr, _⟩ := h.run hp
    have hrows := Nat.mod_lt (recordCount s.taken / s.cfgNv.toNat) (Nat.succ_pos (1440 / s.cfgIv.toNat + 1))
    refine ⟨hcounts.col_eq ▸ Nat.mod_lt _ hcounts.nv_legal, ?_, herr⟩
    exact hcounts.rows_eq ▸ Nat.le_of_lt_succ hrows
  · obtain ⟨hu, hnv, hiv, herr⟩ := h.init hp
    have hsame := hu.sameBlock
    rwa [hp, hnv, hiv, herr] at hsame
  · obtain ⟨hu, hconfig, htrunc⟩ := h.fault hp
    have hsame := hu.sameBlock
    rw [hp] at hsame
    exact ⟨hconfig, htrunc, hu.valid_eq, hsame⟩

end Sys2Proof.Machine
end

section
/-! Every source runs to its end (41_stream.md R109; 30_encoding.md R69; log entry 15): the edges of a run's lines, and
what the block does at each with a consumer that is always ready. -/

namespace Sys2Proof.Machine

variable {w : Widths}

/-! ### The edges of a source -/

/-- The edges of the lines of a source: its bytes, EOS, and the edge that pops the END token. -/
def RunText.sourceEdges (r : RunText w) (src : List Byte) : List (Pins w) :=
  src.map r.offer ++ [{ r.idle with inValid := true, inEos := true }, r.idle]

theorem RunText.sourceEdges_length (r : RunText w) (src : List Byte) :
    (r.sourceEdges src).length = src.length + 2 := by
  simp [RunText.sourceEdges]

theorem RunText.sourceEdges_rst (r : RunText w) (src : List Byte) :
    ∀ p ∈ r.sourceEdges src, p.rst = false := by
  intro p hp
  rcases List.mem_append.1 hp with hp | hp
  · obtain ⟨_, _, rfl⟩ := List.mem_map.1 hp
    rfl
  · rcases List.mem_pair.1 hp with rfl | rfl <;> rfl

theorem RunText.stimuli_of_source (r : RunText w) (src : List Byte)
    (h : r.lines = .reset :: (src.map .byte ++ [.eos])) :
    r.stimuli = .edge { r.idle with rst := true } :: .edge r.idle :: (r.sourceEdges src).map .edge := by
  have hbytes : (src.map Line.byte).flatMap r.edges = src.map r.offer := by
    rw [List.flatMap_map]
    exact List.flatMap_pure_eq_map r.offer src
  rw [RunText.stimuli, h, List.flatMap_cons, List.flatMap_append, hbytes]
  rfl

/-- `s` with other stimuli to come. -/
def Block.withStim (s : Block w) (stim : List (Stimulus w)) : Block w := { s with stim := stim }

theorem SameControl.of_withStim (s : Block w) (stim : List (Stimulus w)) : SameControl s (s.withStim stim) :=
  ⟨rfl, rfl, rfl, rfl⟩

theorem RunOk.withStim {s : Block w} (h : RunOk s) (stim : List (Stimulus w)) : RunOk (s.withStim stim) := by
  obtain ⟨hp, hcounts, herr, htokens⟩ := h
  exact ⟨hp, hcounts.congr rfl rfl rfl rfl rfl rfl rfl rfl rfl, herr, htokens⟩

theorem RunInv.withStim {s : Block w} (h : RunInv s) {stim : List (Stimulus w)}
    (hknown : ∀ x ∈ stim, x.known = true) : RunInv (s.withStim stim) :=
  h.withOwn stim s.freeEdges s.results hknown

/-- The first step of a run whose next stimulus is an edge. -/
theorem core_run_edge {s t : Block w} {p : Pins w} {rest : List (Stimulus w)} (n : Nat)
    (hstim : s.stim = .edge p :: rest) (h : clockEdge p (s.withStim rest) = .next ⟨w, t⟩) :
    Host.Core.run Sys2Proof.core (n + 1) (State.mk w s) =
      Host.Core.run Sys2Proof.core n (State.mk w t) :=
  core_run_succ n ((step_of_edge hstim).trans h)

theorem known_of_edges (ps : List (Pins w)) : ∀ x ∈ ps.map Stimulus.edge, x.known = true := by
  intro x hx
  obtain ⟨p, _, rfl⟩ := List.mem_map.1 hx
  rfl

/-! ### A legal configuration -/

/-- The bytes of a source are taken, one at each edge. -/
theorem core_run_bytes (r : RunText w) (src : List Byte) (rest : List (Stimulus w)) (n : Nat) {s : Block w}
    (h : RunOk s) (hstim : s.stim = (src.map r.offer).map .edge ++ rest) :
    ∃ t, Host.Core.run Sys2Proof.core (src.length + n) (State.mk w s) =
        Host.Core.run Sys2Proof.core n (State.mk w t) ∧
      RunOk t ∧ SameControl s t ∧ t.stim = rest ∧ t.taken = s.taken ++ src := by
  induction src generalizing s with
  | nil => exact ⟨s, by rw [List.length_nil, Nat.zero_add], h, .refl s, hstim, (List.append_nil _).symm⟩
  | cons b src ih =>
    obtain ⟨u, hu, hrun, hstimu, htakenu⟩ :=
      transferByte_runOk b (h.withStim ((src.map r.offer).map .edge ++ rest))
    have htake : inputTransfer (r.offer b) (s.withStim ((src.map r.offer).map .edge ++ rest)) = true :=
      (inputTransfer_iff _ _).2 ⟨rfl, rfl, h.1, .inr rfl⟩
    have hedge := (clockEdge_of_take_byte htake rfl).trans (onBlock_next hu)
    obtain ⟨t, ht, hrunt, hsame, hstimt, htakent⟩ := ih hrun hstimu
    refine ⟨t, ?_, hrunt, ?_, hstimt, ?_⟩
    · rw [List.length_cons, Nat.add_right_comm]
      exact (core_run_edge _ hstim hedge).trans ht
    · exact (SameControl.of_withStim s _).trans ((transferByte_sameControl hu).trans hsame)
    · rw [htakent, htakenu, List.append_assoc]
      rfl

theorem popped_cfgNv (s : Block w) : s.popped.cfgNv = s.cfgNv := by
  unfold Block.popped
  split <;> rfl

theorem popped_cfgIv (s : Block w) : s.popped.cfgIv = s.cfgIv := by
  unfold Block.popped
  split <;> rfl

/-- The edge that offers EOS ends in DONE with the END token held (R106). -/
theorem core_run_eos (r : RunText w) {rest : List (Stimulus w)} (n : Nat) {s : Block w} (h : RunOk s)
    (hstim : s.stim = .edge { r.idle with inValid := true, inEos := true } :: rest)
    (hknown : ∀ x ∈ rest, x.known = true) :
    ∃ t, Host.Core.run Sys2Proof.core (n + 1) (State.mk w s) =
        Host.Core.run Sys2Proof.core n (State.mk w t) ∧
      RunInv t ∧ t.phase = .done ∧ t.oValid = true ∧ t.stim = rest ∧ t.taken = s.taken ∧
      t.cfgNv = s.cfgNv ∧ t.cfgIv = s.cfgIv := by
  have hrun := h.withStim rest
  have htake : inputTransfer { r.idle with inValid := true, inEos := true } (s.withStim rest) = true :=
    (inputTransfer_iff _ _).2 ⟨rfl, rfl, hrun.1, .inr rfl⟩
  have hrest : (s.withStim rest).popped.stim = rest := popped_stim (s.withStim rest)
  refine ⟨_, core_run_edge n hstim (clockEdge_of_take_eos htake rfl), ?_, endStream_phase _,
    endStream_oValid _, (endStream_stim _).trans hrest, (endStream_taken _).trans (popped_taken _),
    (endStream_cfgNv _).trans (popped_cfgNv _), (endStream_cfgIv _).trans (popped_cfgIv _)⟩
  exact endStream_inv (popped_runOk hrun) (popped_oValid _) (by rwa [hrest])

/-- The edge after it delivers the END token, and the run is over (R107, R157). -/
theorem core_run_pop (r : RunText w) {s : Block w} (h : RunInv s) (hp : s.phase = .done)
    (hv : s.oValid = true) (hstim : s.stim = [.edge r.idle]) :
    ∃ t, Host.Core.run Sys2Proof.core 1 (State.mk w s) = .next (State.mk w t) ∧
      t.overAndGood ∧ t.taken = s.taken ∧ t.delivered = out s.cfgNv s.cfgIv s.taken := by
  have hidle : inputTransfer r.idle (s.withStim []) = false := inputTransfer_eq_false (.inl rfl)
  have hinit : (s.withStim []).phase ≠ .init := by
    rw [show (s.withStim []).phase = s.phase from rfl, hp]
    exact Phase.noConfusion
  have hend : RunInv (popToken (s.withStim [])) := popToken_inv (h.withStim (by simp)) hv
  obtain ⟨_, _, htokens⟩ := hend.done hp
  refine ⟨_, core_run_edge 0 hstim (clockEdge_of_pop rfl hinit hidle hv rfl), ⟨hp, rfl⟩, rfl, ?_⟩
  exact (List.append_nil _).symm.trans htokens

/-! ### A configuration that is not legal -/

/-- In FAULT every edge without rst leaves the block as it is (R132, R136). -/
theorem core_run_fault (ps : List (Pins w)) (hrst : ∀ p ∈ ps, p.rst = false) {s : Block w} (h : RunInv s)
    (hp : s.phase = .fault) (hstim : s.stim = ps.map .edge) :
    Host.Core.run Sys2Proof.core ps.length (State.mk w s) = .next (State.mk w (s.withStim [])) := by
  induction ps generalizing s with
  | nil =>
    have hself : s.withStim [] = s := by
      rw [Block.withStim, ← List.map_nil (f := Stimulus.edge), ← hstim]
    rw [hself]
    rfl
  | cons p ps ih =>
    have hinv : RunInv (s.withStim (ps.map .edge)) := h.withStim (known_of_edges ps)
    obtain ⟨hedge, _⟩ := (refusedConfigurationIsTerminal w).2 p _ hinv hp (hrst p List.mem_cons_self)
    have hrest := ih (fun q hq => hrst q (List.mem_cons_of_mem p hq)) hinv hp rfl
    exact (core_run_edge ps.length hstim hedge).trans hrest

/-! ### The obligation -/

/-- The state after RESET and START, whatever state RESET found: the configuration latched, nothing else done. -/
theorem core_run_start (r : RunText w) (ps : List (Pins w)) (n : Nat) (s0 : Block w) :
    ∃ t, Host.Core.run Sys2Proof.core (n + 2) (State.mk w { s0 with
          stim := .edge { r.idle with rst := true } :: .edge r.idle :: ps.map .edge }) =
        Host.Core.run Sys2Proof.core n (State.mk w t) ∧
      RunInv t ∧ t.stim = ps.map .edge ∧ t.cfgNv = r.nodivars ∧ t.cfgIv = r.interval ∧ t.taken = [] ∧
      t.phase = if legalNoDiVars r.nodivars && legalInterval r.interval then .run else .fault := by
  have hreset := core_run_edge (n + 1) (s := { s0 with
    stim := .edge { r.idle with rst := true } :: .edge r.idle :: ps.map .edge }) rfl (clockEdge_of_rst _ rfl)
  have hport : BitVec.ofNat w.nvW r.nodivars.toNat = r.nodivars := by
    rw [BitVec.ofNat_toNat, BitVec.setWidth_eq]
  have hstart : clockEdge r.idle (resetBlock (s0.withStim (ps.map .edge))) =
      .next ⟨w, latchConfig r.nodivars r.interval (resetBlock (s0.withStim (ps.map .edge)))⟩ := by
    rw [clockEdge_of_init rfl rfl]
    exact (exec_start_of_init _ _ rfl).trans (by rw [← hport]; rfl)
  refine ⟨_, hreset.trans (core_run_edge n rfl hstart),
    latchConfig_inv (resetBlock_inv (known_of_edges ps)) rfl _ _, latchConfig_stim _ _ _,
    latchConfig_cfgNv _ _ _, latchConfig_cfgIv _ _ _, latchConfig_taken _ _ _, ?_⟩
  rw [latchConfig_phase, badNoDiVars, badInterval]
  cases legalNoDiVars r.nodivars <;> cases legalInterval r.interval <;> rfl

/-- With a legal configuration latched the source runs to its end. -/
theorem core_run_source (r : RunText w) (src : List Byte) {s : Block w} (h : RunOk s)
    (hstim : s.stim = (r.sourceEdges src).map .edge) :
    ∃ t, Host.Core.run Sys2Proof.core (src.length + 2) (State.mk w s) = .next (State.mk w t) ∧
      t.overAndGood ∧ t.taken = s.taken ++ src ∧ t.delivered = out s.cfgNv s.cfgIv (s.taken ++ src) := by
  obtain ⟨t1, h1, hrun1, hsame, hstim1, htaken1⟩ :=
    core_run_bytes r src _ 2 h (hstim.trans (List.map_append ..))
  obtain ⟨t2, h2, hinv2, hp2, hv2, hstim2, htaken2, hnv2, hiv2⟩ :=
    core_run_eos r 1 hrun1 hstim1 (known_of_edges [r.idle])
  obtain ⟨t, h3, hover, htaken, hdelivered⟩ := core_run_pop r hinv2 hp2 hv2 hstim2
  refine ⟨t, h1.trans (h2.trans h3), hover, htaken.trans (htaken2.trans htaken1), ?_⟩
  rw [hdelivered, hnv2, hiv2, htaken2, htaken1, hsame.nv_eq, hsame.iv_eq]

/-- Settles O50: after RESET and START (`core_run_start`) a legal configuration runs to its end (`core_run_source`), and
one that is not stays in FAULT (`core_run_fault`), where nothing has been taken or delivered. -/
theorem everySourceRunsToItsOut : Obligations.EverySourceRunsToItsOut := by
  intro w nv iv src s0
  obtain ⟨t, ht, hinv, hstim, hnv, hiv, htaken, hphase⟩ :=
    core_run_start ⟨nv, iv, .reset :: (src.map .byte ++ [.eos])⟩ _ (src.length + 2) s0
  rw [RunText.stimuli_of_source _ src rfl]
  by_cases hlegal : legalNoDiVars nv = true ∧ legalInterval iv = true
  case pos =>
    have hrun : t.phase = .run := hphase.trans (if_pos (Bool.and_eq_true_iff.2 hlegal))
    obtain ⟨s, hs, hover, hsrc, hdelivered⟩ := core_run_source _ src (hinv.runOk hrun) hstim
    rw [htaken, List.nil_append] at hsrc hdelivered
    rw [hnv, hiv] at hdelivered
    exact ⟨s, ht.trans hs, hdelivered, fun _ => ⟨hover, hsrc⟩, fun h => absurd hlegal h⟩
  case neg =>
    have hbad : ¬(legalNoDiVars nv && legalInterval iv) = true := mt Bool.and_eq_true_iff.1 hlegal
    have hfault : t.phase = .fault := hphase.trans (if_neg hbad)
    obtain ⟨huntouched, _⟩ := hinv.fault hfault
    have hs := core_run_fault _ (RunText.sourceEdges_rst _ src) hinv hfault hstim
    rw [RunText.sourceEdges_length] at hs
    refine ⟨t.withStim [], ht.trans hs, ?_, fun h => absurd h hlegal, fun _ => ⟨hfault, huntouched.taken_eq⟩⟩
    exact huntouched.delivered_eq.trans (if_neg hbad).symm

end Sys2Proof.Machine
end
